-- ==== Sys2Proof/Word.lean ====
section
/-! DEFINITION. The word types of the hardware (spec 00_scope.md R5: every value is an unsigned
integer of a stated width). -/

namespace Sys2Proof

/-- An 8-bit register, memory cell, timer or immediate `kk`. -/
abbrev Byte := BitVec 8

/-- A 16-bit opcode, program counter, stack slot or index register. -/
abbrev Word := BitVec 16

/-- The 12-bit immediate `nnn` (30_encoding.md R51). -/
abbrev Addr12 := BitVec 12

/-- The index of a general register, 0 to 15 (10_state.md R10). -/
abbrev Reg := Fin 16

/-- A key identifier, 0 to 15 (60_exceptions.md R143). -/
abbrev Key := Fin 16

end Sys2Proof
end

