-- ==== Sys2Proof/Config.lean ====
section
/-! DEFINITION. The parameters that spec 00_scope.md R4 fixes for this hardware, and the free values of
the model: the inputs that the host supplies afresh at every Step (60_exceptions.md R143, R144), which
the spec leaves open (93_implementation_defined.md U5 to U7). `FONT_BASE` and the glyphs are in
Machine/Font.lean. -/

namespace Sys2Proof.Config

/-- `MEM_SIZE` (R4): bytes of memory. -/
abbrev memSize : Nat := 4096

/-- `LOAD_BASE` (R4): first byte of the program image and reset value of `pc`. -/
abbrev loadBase : Nat := 0x200

/-- `MAX_IMAGE` (R4): the longest program image, `MEM_SIZE - LOAD_BASE`. -/
abbrev maxImage : Nat := 3584

/-- `FLAG` (R4): the index of VF. -/
abbrev flagReg : Reg := 15

/-- FREE VALUE (log 1): `keys_held` of the k-th Step whose inputs nothing in the state gives. -/
opaque freeKeysHeld : Nat → BitVec 16

/-- FREE VALUE (log 1): `key_press` of the k-th Step whose inputs nothing in the state gives. -/
opaque freeKeyPress : Nat → Option Key

/-- FREE VALUE (log 1): `rnd` of the k-th Step whose inputs nothing in the state gives. -/
opaque freeRnd : Nat → Byte

end Sys2Proof.Config
end

