-- ==== Sys2Proof/Syntax.lean ====
section
/-! DEFINITION. The 34 instructions of spec/opcode_table.json (30_encoding.md R55), one constructor per
row, in the table's order. The operands are the fields of R51; R53 makes every value of a field legal,
so each field has the type of exactly its values. -/

namespace Sys2Proof

/-- An instruction (R55). Every word outside the table is `UNKNOWN` (R56) and has no constructor: it is
not a row of the table, and the engine handles it (40_step_engine.md R76). -/
inductive Instr where
  /-- `CLS`, 00E0. -/
  | cls
  /-- `RET`, 00EE. -/
  | ret
  /-- `JP addr`, 1nnn. -/
  | jpAddr (nnn : Addr12)
  /-- `CALL addr`, 2nnn. -/
  | callAddr (nnn : Addr12)
  /-- `SE Vx,kk`, 3xkk. -/
  | seVxKk (x : Reg) (kk : Byte)
  /-- `SNE Vx,kk`, 4xkk. -/
  | sneVxKk (x : Reg) (kk : Byte)
  /-- `SE Vx,Vy`, 5xy0. -/
  | seVxVy (x y : Reg)
  /-- `LD Vx,kk`, 6xkk. -/
  | ldVxKk (x : Reg) (kk : Byte)
  /-- `ADD Vx,kk`, 7xkk. -/
  | addVxKk (x : Reg) (kk : Byte)
  /-- `LD Vx,Vy`, 8xy0. -/
  | ldVxVy (x y : Reg)
  /-- `OR Vx,Vy`, 8xy1. -/
  | orVxVy (x y : Reg)
  /-- `AND Vx,Vy`, 8xy2. -/
  | andVxVy (x y : Reg)
  /-- `XOR Vx,Vy`, 8xy3. -/
  | xorVxVy (x y : Reg)
  /-- `ADD Vx,Vy`, 8xy4. -/
  | addVxVy (x y : Reg)
  /-- `SUB Vx,Vy`, 8xy5. -/
  | subVxVy (x y : Reg)
  /-- `SUBN Vx,Vy`, 8xy7. -/
  | subnVxVy (x y : Reg)
  /-- `SHR Vx`, 8xy6; `y` is the don't-care field of R57. -/
  | shrVx (x y : Reg)
  /-- `SHL Vx`, 8xyE; `y` is the don't-care field of R57. -/
  | shlVx (x y : Reg)
  /-- `SNE Vx,Vy`, 9xy0. -/
  | sneVxVy (x y : Reg)
  /-- `LD I,addr`, Annn. -/
  | ldIAddr (nnn : Addr12)
  /-- `JP V0,addr`, Bnnn. -/
  | jpV0Addr (nnn : Addr12)
  /-- `RND Vx,kk`, Cxkk. -/
  | rndVxKk (x : Reg) (kk : Byte)
  /-- `DRW Vx,Vy,n`, Dxyn; `n` is the sprite's height, 0 to 15. -/
  | drwVxVyN (x y : Reg) (n : Fin 16)
  /-- `SKP Vx`, Ex9E. -/
  | skpVx (x : Reg)
  /-- `SKNP Vx`, ExA1. -/
  | sknpVx (x : Reg)
  /-- `LD Vx,DT`, Fx07. -/
  | ldVxDt (x : Reg)
  /-- `LD Vx,K`, Fx0A. -/
  | ldVxK (x : Reg)
  /-- `LD DT,Vx`, Fx15. -/
  | ldDtVx (x : Reg)
  /-- `LD ST,Vx`, Fx18. -/
  | ldStVx (x : Reg)
  /-- `ADD I,Vx`, Fx1E. -/
  | addIVx (x : Reg)
  /-- `LD F,Vx`, Fx29. -/
  | ldFVx (x : Reg)
  /-- `LD B,Vx`, Fx33. -/
  | ldBVx (x : Reg)
  /-- `LD [I],Vx`, Fx55. -/
  | ldMemVx (x : Reg)
  /-- `LD Vx,[I]`, Fx65. -/
  | ldVxMem (x : Reg)
  deriving DecidableEq, Repr

end Sys2Proof
end

