-- ==== Sys2Proof/WellFormed.lean ====
section
/-! DEFINITION. What a well-formed instruction word, instruction and program image are.

An `Instr` needs no check of its own: "all sixteen values legal in every instruction that has the field"
(30_encoding.md R53), and the types of Syntax.lean admit exactly those values, so an ill-formed
instruction cannot be built. What CAN be ill-formed is what comes from outside: a 16-bit word that no
row of the table selects (R55, R56), and an image longer than memory from the load base on
(70_reset_and_hazards.md R151). -/

namespace Sys2Proof

/-- One row of the opcode table (R55): a word selects the row when `word &&& mask = value`. -/
structure OpcodeRow where
  mnemonic : String
  mask : Word
  value : Word
  deriving DecidableEq, Repr

/-- Rows 1 to 12 of R55. -/
def opcodeRowsA : List OpcodeRow :=
  [⟨"CLS", 0xFFFF, 0x00E0⟩, ⟨"RET", 0xFFFF, 0x00EE⟩,
   ⟨"JP_addr", 0xF000, 0x1000⟩, ⟨"CALL_addr", 0xF000, 0x2000⟩,
   ⟨"SE_Vx_kk", 0xF000, 0x3000⟩, ⟨"SNE_Vx_kk", 0xF000, 0x4000⟩,
   ⟨"SE_Vx_Vy", 0xF00F, 0x5000⟩, ⟨"LD_Vx_kk", 0xF000, 0x6000⟩,
   ⟨"ADD_Vx_kk", 0xF000, 0x7000⟩, ⟨"LD_Vx_Vy", 0xF00F, 0x8000⟩,
   ⟨"OR_Vx_Vy", 0xF00F, 0x8001⟩, ⟨"AND_Vx_Vy", 0xF00F, 0x8002⟩]

/-- Rows 13 to 23 of R55. -/
def opcodeRowsB : List OpcodeRow :=
  [⟨"XOR_Vx_Vy", 0xF00F, 0x8003⟩, ⟨"ADD_Vx_Vy", 0xF00F, 0x8004⟩,
   ⟨"SUB_Vx_Vy", 0xF00F, 0x8005⟩, ⟨"SUBN_Vx_Vy", 0xF00F, 0x8007⟩,
   ⟨"SHR_Vx", 0xF00F, 0x8006⟩, ⟨"SHL_Vx", 0xF00F, 0x800E⟩,
   ⟨"SNE_Vx_Vy", 0xF00F, 0x9000⟩, ⟨"LD_I_addr", 0xF000, 0xA000⟩,
   ⟨"JP_V0_addr", 0xF000, 0xB000⟩, ⟨"RND_Vx_kk", 0xF000, 0xC000⟩,
   ⟨"DRW_Vx_Vy_n", 0xF000, 0xD000⟩]

/-- Rows 24 to 34 of R55. -/
def opcodeRowsC : List OpcodeRow :=
  [⟨"SKP_Vx", 0xF0FF, 0xE09E⟩, ⟨"SKNP_Vx", 0xF0FF, 0xE0A1⟩,
   ⟨"LD_Vx_DT", 0xF0FF, 0xF007⟩, ⟨"LD_Vx_K", 0xF0FF, 0xF00A⟩,
   ⟨"LD_DT_Vx", 0xF0FF, 0xF015⟩, ⟨"LD_ST_Vx", 0xF0FF, 0xF018⟩,
   ⟨"ADD_I_Vx", 0xF0FF, 0xF01E⟩, ⟨"LD_F_Vx", 0xF0FF, 0xF029⟩,
   ⟨"LD_B_Vx", 0xF0FF, 0xF033⟩, ⟨"LD__I__Vx", 0xF0FF, 0xF055⟩,
   ⟨"LD_Vx__I", 0xF0FF, 0xF065⟩]

/-- The opcode table of R55, in its order. The decoder (Decode.lean) does not use it: it follows R54's
decision tree, and that the two agree is a statement. -/
def opcodeTable : List OpcodeRow := opcodeRowsA ++ opcodeRowsB ++ opcodeRowsC

/-- The word selects the row (R55). -/
def OpcodeRow.selects (row : OpcodeRow) (op : Word) : Bool := op &&& row.mask == row.value

/-- A word that some row of the opcode table selects; the other words are `UNKNOWN` (R56). -/
def wordKnown (op : Word) : Bool := opcodeTable.any fun row => row.selects op

/-- The instruction's operands lie in the ranges of R53. The types guarantee it (`Laws.instr_wf`). -/
def Instr.wf : Instr → Bool
  | .cls | .ret => true
  | .jpAddr nnn | .callAddr nnn | .ldIAddr nnn | .jpV0Addr nnn => decide (nnn.toNat ≤ 4095)
  | .seVxKk x kk | .sneVxKk x kk | .ldVxKk x kk | .addVxKk x kk | .rndVxKk x kk =>
    decide (x.val ≤ 15) && decide (kk.toNat ≤ 255)
  | .seVxVy x y | .sneVxVy x y | .ldVxVy x y | .orVxVy x y | .andVxVy x y | .xorVxVy x y
  | .addVxVy x y | .subVxVy x y | .subnVxVy x y | .shrVx x y | .shlVx x y =>
    decide (x.val ≤ 15) && decide (y.val ≤ 15)
  | .drwVxVyN x y n => decide (x.val ≤ 15) && decide (y.val ≤ 15) && decide (n.val ≤ 15)
  | .skpVx x | .sknpVx x | .ldVxDt x | .ldVxK x | .ldDtVx x | .ldStVx x | .addIVx x | .ldFVx x
  | .ldBVx x | .ldMemVx x | .ldVxMem x => decide (x.val ≤ 15)

/-- An image that `Load` accepts (70_reset_and_hazards.md R151): at most 3584 bytes. -/
def imageFits (image : List Byte) : Bool := decide (image.length ≤ Config.maxImage)

end Sys2Proof
end

