-- ==== Sys2Proof/Decode.lean ====
section
/-! DEFINITION. The decoder of spec 30_encoding.md R54, total on every word and on any bytes, and after it
the encoder, written from the formats of R52 and the patterns of R55. -/

namespace Sys2Proof

/-- The class `c`, `op[15:12]` (R51). -/
def fieldC (op : Word) : BitVec 4 := op.extractLsb' 12 4

/-- The field `x`, `op[11:8]` (R51). -/
def fieldX (op : Word) : Reg := (op.extractLsb' 8 4).toFin

/-- The field `y`, `op[7:4]` (R51). -/
def fieldY (op : Word) : Reg := (op.extractLsb' 4 4).toFin

/-- The field `n`, `op[3:0]` (R51). -/
def fieldN (op : Word) : BitVec 4 := op.extractLsb' 0 4

/-- The field `kk`, `op[7:0]` (R51). -/
def fieldKK (op : Word) : Byte := op.extractLsb' 0 8

/-- The field `nnn`, `op[11:0]` (R51). -/
def fieldNNN (op : Word) : Addr12 := op.extractLsb' 0 12

/-- Class 8, told apart by the low nibble (R54). -/
def decodeClass8 (op : Word) : Option Instr :=
  let x := fieldX op
  let y := fieldY op
  match fieldN op with
  | 0x0#4 => some (.ldVxVy x y)
  | 0x1#4 => some (.orVxVy x y)
  | 0x2#4 => some (.andVxVy x y)
  | 0x3#4 => some (.xorVxVy x y)
  | 0x4#4 => some (.addVxVy x y)
  | 0x5#4 => some (.subVxVy x y)
  | 0x6#4 => some (.shrVx x y)
  | 0x7#4 => some (.subnVxVy x y)
  | 0xE#4 => some (.shlVx x y)
  | _ => none

/-- Class F, told apart by the low byte (R54). -/
def decodeClassF (op : Word) : Option Instr :=
  let x := fieldX op
  match fieldKK op with
  | 0x07#8 => some (.ldVxDt x)
  | 0x0A#8 => some (.ldVxK x)
  | 0x15#8 => some (.ldDtVx x)
  | 0x18#8 => some (.ldStVx x)
  | 0x1E#8 => some (.addIVx x)
  | 0x29#8 => some (.ldFVx x)
  | 0x33#8 => some (.ldBVx x)
  | 0x55#8 => some (.ldMemVx x)
  | 0x65#8 => some (.ldVxMem x)
  | _ => none

/-- `decode` of R54. `none` is `UNKNOWN` (R56): every selector is matched exactly, and a word whose
class is known but whose selector is not listed is never the nearest instruction. -/
def decodeWord (op : Word) : Option Instr :=
  match fieldC op with
  | 0x0#4 => if op = 0x00E0#16 then some .cls else if op = 0x00EE#16 then some .ret else none
  | 0x1#4 => some (.jpAddr (fieldNNN op))
  | 0x2#4 => some (.callAddr (fieldNNN op))
  | 0x3#4 => some (.seVxKk (fieldX op) (fieldKK op))
  | 0x4#4 => some (.sneVxKk (fieldX op) (fieldKK op))
  | 0x5#4 => if fieldN op = 0#4 then some (.seVxVy (fieldX op) (fieldY op)) else none
  | 0x6#4 => some (.ldVxKk (fieldX op) (fieldKK op))
  | 0x7#4 => some (.addVxKk (fieldX op) (fieldKK op))
  | 0x8#4 => decodeClass8 op
  | 0x9#4 => if fieldN op = 0#4 then some (.sneVxVy (fieldX op) (fieldY op)) else none
  | 0xA#4 => some (.ldIAddr (fieldNNN op))
  | 0xB#4 => some (.jpV0Addr (fieldNNN op))
  | 0xC#4 => some (.rndVxKk (fieldX op) (fieldKK op))
  | 0xD#4 => some (.drwVxVyN (fieldX op) (fieldY op) (fieldN op).toFin)
  | 0xE#4 =>
    if fieldKK op = 0x9E#8 then some (.skpVx (fieldX op))
    else if fieldKK op = 0xA1#8 then some (.sknpVx (fieldX op)) else none
  | _ => decodeClassF op

/-- Why a sequence of bytes does not begin with an instruction. -/
inductive DecodeError where
  /-- The word is `UNKNOWN` (R56): not a fault, the engine reports it and goes on (R76). -/
  | unknownOpcode (op : Word)
  /-- Fewer than the two bytes that every instruction has (R50). -/
  | truncated
  deriving DecidableEq, Repr

/-- A word from its two bytes, the byte at the lower address supplying bits 15 to 8
(20_memory.md R35). -/
def wordOfBytes (hi lo : Byte) : Word := hi ++ lo

/-- Decode the instruction at the head of a list of bytes (R50: always two of them, high byte first);
answers it with the rest of the list, or a reason by name. -/
def decode : List Byte → Except DecodeError (Instr × List Byte)
  | hi :: lo :: rest =>
    match decodeWord (wordOfBytes hi lo) with
    | some i => .ok (i, rest)
    | none => .error (.unknownOpcode (wordOfBytes hi lo))
  | [_] => .error .truncated
  | [] => .error .truncated

/-- Format A of R52: the class and the 12-bit immediate. -/
def formatA (c : BitVec 4) (nnn : Addr12) : Word := c ++ nnn

/-- Format XK of R52: the class, a register and a byte. -/
def formatXK (c : BitVec 4) (x : Reg) (kk : Byte) : Word :=
  c ++ (BitVec.ofFin (w := 4) x ++ kk)

/-- Formats XY and XYN of R52: the class, two registers and a nibble. -/
def formatXYN (c : BitVec 4) (x y : Reg) (n : BitVec 4) : Word :=
  c ++ (BitVec.ofFin (w := 4) x ++ (BitVec.ofFin (w := 4) y ++ n))

/-- The word of an instruction (R52, R55). Format Z is the fixed word; format X is format XK with a
fixed selector byte. -/
def encode : Instr → Word
  | .cls => 0x00E0#16
  | .ret => 0x00EE#16
  | .jpAddr nnn => formatA 0x1 nnn
  | .callAddr nnn => formatA 0x2 nnn
  | .seVxKk x kk => formatXK 0x3 x kk
  | .sneVxKk x kk => formatXK 0x4 x kk
  | .seVxVy x y => formatXYN 0x5 x y 0x0
  | .ldVxKk x kk => formatXK 0x6 x kk
  | .addVxKk x kk => formatXK 0x7 x kk
  | .ldVxVy x y => formatXYN 0x8 x y 0x0
  | .orVxVy x y => formatXYN 0x8 x y 0x1
  | .andVxVy x y => formatXYN 0x8 x y 0x2
  | .xorVxVy x y => formatXYN 0x8 x y 0x3
  | .addVxVy x y => formatXYN 0x8 x y 0x4
  | .subVxVy x y => formatXYN 0x8 x y 0x5
  | .subnVxVy x y => formatXYN 0x8 x y 0x7
  | .shrVx x y => formatXYN 0x8 x y 0x6
  | .shlVx x y => formatXYN 0x8 x y 0xE
  | .sneVxVy x y => formatXYN 0x9 x y 0x0
  | .ldIAddr nnn => formatA 0xA nnn
  | .jpV0Addr nnn => formatA 0xB nnn
  | .rndVxKk x kk => formatXK 0xC x kk
  | .drwVxVyN x y n => formatXYN 0xD x y (BitVec.ofFin (w := 4) n)
  | .skpVx x => formatXK 0xE x 0x9E
  | .sknpVx x => formatXK 0xE x 0xA1
  | .ldVxDt x => formatXK 0xF x 0x07
  | .ldVxK x => formatXK 0xF x 0x0A
  | .ldDtVx x => formatXK 0xF x 0x15
  | .ldStVx x => formatXK 0xF x 0x18
  | .addIVx x => formatXK 0xF x 0x1E
  | .ldFVx x => formatXK 0xF x 0x29
  | .ldBVx x => formatXK 0xF x 0x33
  | .ldMemVx x => formatXK 0xF x 0x55
  | .ldVxMem x => formatXK 0xF x 0x65

/-- The two bytes of a word as memory holds them, high byte first (20_memory.md R35). -/
def bytesOfWord (op : Word) : List Byte := [op.extractLsb' 8 8, op.extractLsb' 0 8]

/-- The 16-bit word that spec/opcode_table.json numbers `w`, of which the table gives `nbits` bits; the
bits above them are 0. -/
def tableWord (nbits w : Nat) : Word := BitVec.ofNat 16 (w % 2 ^ nbits)

/-- The instruction the decoder reads from a word numbered as spec/opcode_table.json numbers it, laid
out in memory's byte order (R35). -/
def decodeTableWord (nbits w : Nat) : Option Instr :=
  match decode (bytesOfWord (tableWord nbits w)) with
  | .ok (i, _) => some i
  | .error _ => none

end Sys2Proof
end

