-- ==== Sys2Proof/Machine/Font.lean ====
section
/-! DEFINITION. The font region of spec 20_memory.md R32, R33: `FONT_BASE` and the 16 glyphs, which
Reset writes into memory (10_state.md R21). The spec marks the address as its decision D4 and the bytes
as its decision D5 from general knowledge: log 6, PRESUMED, unsafe for a claim about their values. -/

namespace Sys2Proof.Machine

/-- `FONT_BASE` (00_scope.md R4, 20_memory.md R32; log 6). -/
def fontBase : Nat := 0x050

/-- Glyphs 0 to 7 of R33, five rows of pixels each, top row first (log 6). -/
def glyphsLow : List (List Byte) :=
  [[0xF0, 0x90, 0x90, 0x90, 0xF0], [0x20, 0x60, 0x20, 0x20, 0x70],
   [0xF0, 0x10, 0xF0, 0x80, 0xF0], [0xF0, 0x10, 0xF0, 0x10, 0xF0],
   [0x90, 0x90, 0xF0, 0x10, 0x10], [0xF0, 0x80, 0xF0, 0x10, 0xF0],
   [0xF0, 0x80, 0xF0, 0x90, 0xF0], [0xF0, 0x10, 0x20, 0x40, 0x40]]

/-- Glyphs 8 to F of R33 (log 6). -/
def glyphsHigh : List (List Byte) :=
  [[0xF0, 0x90, 0xF0, 0x90, 0xF0], [0xF0, 0x90, 0xF0, 0x10, 0xF0],
   [0xF0, 0x90, 0xF0, 0x90, 0x90], [0xE0, 0x90, 0xE0, 0x90, 0xE0],
   [0xF0, 0x80, 0x80, 0x80, 0xF0], [0xE0, 0x90, 0x90, 0x90, 0xE0],
   [0xF0, 0x80, 0xF0, 0x80, 0xF0], [0xF0, 0x80, 0xF0, 0x80, 0x80]]

/-- Byte `j` of glyph `d` (R33). -/
def glyphByte (d j : Nat) : Byte := ((glyphsLow ++ glyphsHigh).getD d []).getD j 0x00

/-- What memory holds at an address after Reset (10_state.md R21): the glyph bytes in the font region,
0x00 elsewhere. -/
def resetByte (a : Nat) : Byte :=
  if fontBase ≤ a ∧ a < fontBase + 80 then glyphByte ((a - fontBase) / 5) ((a - fontBase) % 5)
  else 0x00

end Sys2Proof.Machine
end

