-- ==== Sys2Proof/Machine/Memory.lean ====
section
/-! DEFINITION. Main memory (spec 10_state.md R18, 20_memory.md R31) as plain data: the list of the bytes
that differ from memory's reset contents, in one canonical form (log 10). The bounds check of R34 is in
Ops.lean. -/

namespace Sys2Proof.Machine

/-- Memory: (address, byte) pairs. An address that is not listed reads as `resetByte`. -/
abbrev Memory := List Host.Cell

/-- The byte at an address. -/
def Memory.read : Memory → Nat → Byte
  | [], a => resetByte a
  | (a', b') :: m, a => if a = a' then b' else Memory.read m a

/-- Put the byte `b` of address `a` in front of a memory whose addresses all lie above `a`. -/
def Memory.put (a : Nat) (b : Byte) (m : Memory) : Memory :=
  if b = resetByte a then m else (a, b) :: m

/-- Store a byte, keeping the canonical form: storing what an unlisted address reads as removes the
entry. -/
def Memory.write : Memory → Nat → Byte → Memory
  | [], a, b => Memory.put a b []
  | (a', b') :: m, a, b =>
    if a < a' then Memory.put a b ((a', b') :: m)
    else if a = a' then Memory.put a b m
    else (a', b') :: Memory.write m a b

/-- Store bytes at ascending addresses from `a` (20_memory.md R37). -/
def Memory.writeAll : Memory → Nat → List Byte → Memory
  | m, _, [] => m
  | m, a, b :: bs => Memory.writeAll (Memory.write m a b) (a + 1) bs

/-- The canonical form: addresses strictly rising and inside memory, and no entry equal to what an
unlisted address reads as. -/
def Memory.wf : Memory → Bool
  | [] => true
  | (a, b) :: m =>
    decide (a < Config.memSize) && decide (b ≠ resetByte a) && m.all (fun c => decide (a < c.1))
      && Memory.wf m

end Sys2Proof.Machine
end

