-- ==== Sys2Proof/Machine/State.lean ====
section
/-! DEFINITION. The machine's state: the tuple of spec 10_state.md R20, and beside it the model's own
fields for the host's side of the interface (60_exceptions.md R143 to R145). Its reset value is R21. -/

namespace Sys2Proof.Machine

/-- The kinds of fatal fault (60_exceptions.md R130): part of the machine's `mode` and of a Step's
outcome. Taking one is a next state of this machine, not a stop of the model (R138; log 3). -/
inductive FaultKind where
  /-- CALL with `sp = 15` or RET with `sp = 0` (R131). -/
  | stackFault
  /-- A data access or a fetch outside memory (R132). -/
  | memoryFault
  deriving DecidableEq, Repr

/-- The execution mode (10_state.md R17). -/
inductive Mode where
  | running
  /-- Waiting for a key; `x` is the register that will receive it. -/
  | awaitingKey (x : Reg)
  /-- Halted by a fault (R138); only Reset leaves it (R139). -/
  | halted (kind : FaultKind)
  deriving DecidableEq, Repr

/-- The three inputs of one Step (60_exceptions.md R143, R144). -/
structure StepInput where
  /-- Bit `k` is 1 iff key `k` is held. -/
  keysHeld : BitVec 16
  /-- The key the host reports as newly pressed. -/
  keyPress : Option Key
  /-- The byte of the host's random source. -/
  rnd : Byte
  deriving DecidableEq, Repr

/-- What a Step returns (40_step_engine.md R77). -/
inductive StepOutcome where
  | ok
  | unknownOpcode (op : Word)
  | fault (kind : FaultKind)
  deriving DecidableEq, Repr

/-- What Load returns (70_reset_and_hazards.md R151). -/
inductive LoadResult where
  | ok
  | loadError
  deriving DecidableEq, Repr

/-- What the last operation returned to the host. No part of the spec's state: nothing in the machine
reads it (log 3). -/
inductive Report where
  /-- Nothing: no operation yet, or Reset, which "takes and returns nothing" (92_eei_decisions.md D2). -/
  | nothing
  | step (outcome : StepOutcome)
  /-- The beep of a Tick (60_exceptions.md R142). -/
  | tick (beep : Bool)
  | load (result : LoadResult)
  /-- The pixel of an FbRead (R145). -/
  | pixel (on : Bool)
  deriving DecidableEq, Repr

/-- The operations the host invokes (00_scope.md R7). -/
inductive HostOp where
  /-- `Step(keys_held, key_press, rnd)`, 40_step_engine.md R70. -/
  | step (input : StepInput)
  /-- `Tick()`, 60_exceptions.md R141. -/
  | tick
  /-- `Load(image)`, 70_reset_and_hazards.md R151. -/
  | load (image : List Byte)
  /-- `Reset`, 70_reset_and_hazards.md R150. -/
  | reset
  /-- `FbRead(r, c)`, 60_exceptions.md R145; the port takes 5 and 6 address bits, so no other
  coordinate can be expressed (93_implementation_defined.md U15). -/
  | fbRead (r : Fin 32) (c : Fin 64)
  deriving DecidableEq, Repr

/-- Why the model stops. The faults of the SPEC are not here: they are taken (`FaultKind`, `Mode.halted`). -/
inductive Fault where
  /-- Raised by the host operation Load outside its window: the spec "defines no behaviour for a Load at
  any other time and a model gives it no transition there" (70_reset_and_hazards.md R151; stuck, U13).
  Safe: nothing can be proved of what follows (log 4). -/
  | loadOutsideWindow
  deriving DecidableEq, Repr

/-- Why the model has no meaning for an instruction. -/
inductive Refusal where
  /-- Raised by an arm of `exec` whose instruction has no meaning yet. Safe. No arm raises it. -/
  | notModelled (mnemonic : String)
  deriving DecidableEq, Repr

/-- The state: ten components of the spec (10_state.md R20), then five fields of the model's own. -/
structure State where
  /-- `mem` (R18). -/
  mem : Memory
  /-- `V[0]` to `V[15]` (R10); `V[15]` is VF (R11). -/
  v : Vector Byte 16
  /-- `I` (R12). -/
  i : Word
  /-- `pc` (R13). -/
  pc : Word
  /-- `sp` (R14). -/
  sp : Fin 16
  /-- `stack[0]` to `stack[15]` (R14). -/
  stack : Vector Word 16
  /-- `DT` (R15). -/
  dt : Byte
  /-- `ST` (R15). -/
  st : Byte
  /-- `fb` (R16): row `r` is the word `fb[r]`, column `c` its bit `c` (log 9). -/
  fb : Vector (BitVec 64) 32
  /-- `mode` (R17). -/
  mode : Mode
  /-- MODEL'S OWN (log 2): the host operations still to come, the next one first. -/
  script : List HostOp
  /-- MODEL'S OWN (log 1): the inputs of the current Step. -/
  input : StepInput
  /-- MODEL'S OWN (log 1): how many free inputs have been taken. -/
  hostCount : Nat
  /-- MODEL'S OWN (log 3): what the last operation returned to the host. -/
  report : Report
  /-- MODEL'S OWN (log 4): Load is legal now (70_reset_and_hazards.md R151). -/
  loadWindow : Bool
  deriving DecidableEq, Repr

/-- The state after Reset (10_state.md R21, 70_reset_and_hazards.md R150). Memory lists nothing, because
`resetByte` is its reset contents. The model's own fields: log 16. -/
def State.reset : State where
  mem := []
  v := Vector.replicate 16 0x00
  i := 0x0000
  pc := 0x0200
  sp := 0
  stack := Vector.replicate 16 0x0000
  dt := 0x00
  st := 0x00
  fb := Vector.replicate 32 0
  mode := .running
  script := []
  input := ⟨0, none, 0⟩
  hostCount := 0
  report := .nothing
  loadWindow := true

end Sys2Proof.Machine
end

