-- ==== Sys2Proof/Machine/Operands.lean ====
section
/-! DEFINITION. The operand forms of the instruction set (spec 30_encoding.md R51, R53, R59): general
registers, the low nibble of a register, the BCD digits of a register, the index register and the
effective addresses built on it (43_index_memory.md R111), and the inputs of the current Step. -/

namespace Sys2Proof.Machine

/-- Read `V[x]` (10_state.md R10). -/
def State.reg (s : State) (x : Reg) : Byte := s.v[x.val]

/-- Write `V[x]` (R10). -/
def State.setReg (s : State) (x : Reg) (b : Byte) : State := { s with v := s.v.set x.val b }

/-- Write `I`: every write stores `value mod 4096` (10_state.md R12). -/
def State.setIndex (s : State) (a : Word) : State := { s with i := a &&& 0x0FFF }

/-- `zext_16` of a 12-bit immediate (00_scope.md R5, 30_encoding.md R53). -/
def zext16 (nnn : Addr12) : Word := nnn.setWidth 16

/-- `V[x][3:0]`, the digit or key that a register names (43_index_memory.md R107,
45_timers_keys.md R120); bits 7 to 4 are ignored. -/
def lowNibble (b : Byte) : Fin 16 := (b.extractLsb' 0 4).toFin

/-- The address of the glyph of a digit, `FONT_BASE + 5 * d` (43_index_memory.md R107). -/
def glyphAddress (d : Fin 16) : Word := BitVec.ofNat 16 (fontBase + 5 * d.val)

/-- Hundreds, tens and ones of a byte, each a byte 0 to 9 (43_index_memory.md R108). -/
def bcdDigits (a : Byte) : List Byte := [a / 100, (a / 10) % 10, a % 10]

/-- The base of every data access: `I` as a natural number; `I + k` is never masked
(43_index_memory.md R111). -/
def State.base (s : State) : Nat := s.i.toNat

/-- Key `k` is held at the current Step (60_exceptions.md R143). -/
def State.keyHeld (s : State) (k : Key) : Bool := s.input.keysHeld.getLsbD k.val

/-- `V[0]` to `V[x]`, ascending: the operands of the block store (43_index_memory.md R109). -/
def State.regsUpTo (s : State) (x : Reg) : List Byte :=
  (List.range (x.val + 1)).map fun k => s.reg (Fin.ofNat 16 k)

/-- Write bytes into `V[k]`, `V[k+1]` and so on, ascending: the block load's writes
(43_index_memory.md R110). -/
def State.setRegsFrom : List Byte → Nat → State → State
  | [], _, s => s
  | b :: bs, k, s => State.setRegsFrom bs (k + 1) (s.setReg (Fin.ofNat 16 k) b)

/-- The pixel `fb[r][c]` (10_state.md R16). -/
def State.pixel (s : State) (r : Fin 32) (c : Fin 64) : Bool := s.fb[r.val].getLsbD c.val

end Sys2Proof.Machine
end

