-- ==== Sys2Proof/Machine/Flags.lean ====
section
/-! DEFINITION. The flag computations (spec 10_state.md R11, 42_alu.md R90, R103). The one flag is VF,
`V[15]`; the flag-writing instructions write it with the value 0 or 1, after their result. -/

namespace Sys2Proof.Machine

/-- Carry of an addition: 1 iff the sum on naturals is at least 256 (R103). -/
def carry (a b : Byte) : Bool := decide (a.toNat + b.toNat ≥ 256)

/-- NOT-borrow of `a - b`: 1 iff `a >= b` (R103). -/
def notBorrow (a b : Byte) : Bool := decide (a.toNat ≥ b.toNat)

/-- The bit that SHR shifts out, the old bit 0 (R100). -/
def shiftedOutRight (a : Byte) : Bool := a.getLsbD 0

/-- The bit that SHL shifts out, the old bit 7 (R101). -/
def shiftedOutLeft (a : Byte) : Bool := a.getLsbD 7

/-- A flag as the byte 0x00 or 0x01 (R11). -/
def flagByte (f : Bool) : Byte := if f then 0x01 else 0x00

/-- Write VF (R11). -/
def State.setFlag (s : State) (f : Bool) : State := s.setReg Config.flagReg (flagByte f)

/-- Write a result and then the flag: "`V[x]` first, `V[15]` second"; with `x = 15` the flag wins
(R90, the spec's D15; log 13). -/
def State.setResultAndFlag (s : State) (x : Reg) (b : Byte) (f : Bool) : State :=
  (s.setReg x b).setFlag f

end Sys2Proof.Machine
end

