-- ==== Sys2Proof/Machine/Ops.lean ====
section
/-! DEFINITION. The operations that instructions share: memory access with its one bounds check
(spec 20_memory.md R34), the program counter's advance (40_step_engine.md R75), the outcome of a
successful instruction (R77), taking a fault (R78, 60_exceptions.md R138) and, beside it, the only way out
of a fault, Reset (R139). -/

namespace Sys2Proof.Machine

/-- The outcome of one step of this machine. -/
abbrev Result := Host.Outcome State Fault Refusal

/-- All of the `n` bytes from address `a` exist: the one comparison on the last address (R34). No byte
is out of range when there is none (44_display.md R117, `n = 0`). -/
def rangeInMemory (a n : Nat) : Bool := n == 0 || decide (a + n - 1 ≤ 4095)

/-- `MemRead(addr, 1)` of R34; `none` is MemoryFault. -/
def State.readByte (s : State) (a : Nat) : Option Byte :=
  if rangeInMemory a 1 then some (s.mem.read a) else none

/-- `MemWrite(addr, 1, v)` of R34; `none` is MemoryFault. -/
def State.writeByte (s : State) (a : Nat) (b : Byte) : Option State :=
  if rangeInMemory a 1 then some { s with mem := s.mem.write a b } else none

/-- Read `n` bytes at ascending addresses; the whole range is checked first (R34). -/
def State.readBytes (s : State) (a n : Nat) : Option (List Byte) :=
  if rangeInMemory a n then some ((List.range n).map fun k => s.mem.read (a + k)) else none

/-- Store bytes at ascending addresses; the whole range is checked before any is written (R34). -/
def State.storeBytes (s : State) (a : Nat) (bs : List Byte) : Option State :=
  if rangeInMemory a bs.length then some { s with mem := s.mem.writeAll a bs } else none

/-- Fetch: `MemRead(pc, 2)`, the byte at the lower address in the high half (20_memory.md R35,
40_step_engine.md R73); `none` is MemoryFault. -/
def State.fetch (s : State) : Option Word :=
  match s.readBytes s.pc.toNat 2 with
  | some (hi :: lo :: _) => some (wordOfBytes hi lo)
  | _ => none

/-- `pc <- pc + 2` (40_step_engine.md R75a), a 16-bit sum (log 12). -/
def State.advance (s : State) : State := { s with pc := s.pc + 2 }

/-- The program counter of a skip: `pc + 4` when its condition holds, else `pc + 2` (R75b). -/
def State.skipIf (s : State) (cond : Bool) : State :=
  { s with pc := if cond then s.pc + 4 else s.pc + 2 }

/-- `pc <- target` (R75c). -/
def State.jump (s : State) (target : Word) : State := { s with pc := target }

/-- `return Ok` (40_step_engine.md R70, R77). -/
def returnOk (s : State) : Result := .next { s with report := .step .ok }

/-- The end of an instruction that is no control transfer: `pc <- pc + 2`, `return Ok`. -/
def retire (s : State) : Result := returnOk s.advance

/-- TAKING A FAULT, `raise <Fault>` (00_scope.md R6): the mode becomes `Halted(kind)`, the Step returns
`Fault(kind)`, nothing else changes (R78); nothing is saved and nothing is vectored (60_exceptions.md
R138). `s` is the state before the instruction's first write (log 3). -/
def raise (kind : FaultKind) (s : State) : Result :=
  .next { s with mode := .halted kind, report := .step (.fault kind) }

/-- An operation that may raise `kind`: raise it in the state before, or go on. -/
def orRaise (kind : FaultKind) (s : State) {α : Type} (o : Option α) (k : α → Result) : Result :=
  match o with
  | none => raise kind s
  | some a => k a

/-- THE WAY OUT OF A FAULT, `Reset` (70_reset_and_hazards.md R150): the only transition out of `Halted`
(60_exceptions.md R139; there is no return-from-fault instruction). It can be invoked in any mode and puts
every component at its reset value; the host's own side, its script and its counter, goes on. -/
def resetOp (s : State) : Result :=
  .next { State.reset with script := s.script, hostCount := s.hostCount }

end Sys2Proof.Machine
end

