-- ==== Sys2Proof/Machine/Alu.lean ====
section
/-! DEFINITION. Register load, arithmetic, logic, shift and random (spec 42_alu.md R90 to R103). All
arithmetic is modulo 256 and never faults (R103); operands are read before any write (R90). -/

namespace Sys2Proof.Machine

/-- `LD Vx,kk` (R91). -/
def execLdVxKk (x : Reg) (kk : Byte) (s : State) : Result := retire (s.setReg x kk)

/-- `ADD Vx,kk` (R92): no flag. -/
def execAddVxKk (x : Reg) (kk : Byte) (s : State) : Result := retire (s.setReg x (s.reg x + kk))

/-- `LD Vx,Vy` (R93). -/
def execLdVxVy (x y : Reg) (s : State) : Result := retire (s.setReg x (s.reg y))

/-- `OR Vx,Vy` (R94): no flag. -/
def execOrVxVy (x y : Reg) (s : State) : Result := retire (s.setReg x (s.reg x ||| s.reg y))

/-- `AND Vx,Vy` (R95): no flag. -/
def execAndVxVy (x y : Reg) (s : State) : Result := retire (s.setReg x (s.reg x &&& s.reg y))

/-- `XOR Vx,Vy` (R96): no flag. -/
def execXorVxVy (x y : Reg) (s : State) : Result := retire (s.setReg x (s.reg x ^^^ s.reg y))

/-- `ADD Vx,Vy` (R97): VF is the carry. -/
def execAddVxVy (x y : Reg) (s : State) : Result :=
  let a := s.reg x
  let b := s.reg y
  retire (s.setResultAndFlag x (a + b) (carry a b))

/-- `SUB Vx,Vy` (R98): VF is NOT-borrow of `Vx - Vy`. -/
def execSubVxVy (x y : Reg) (s : State) : Result :=
  let a := s.reg x
  let b := s.reg y
  retire (s.setResultAndFlag x (a - b) (notBorrow a b))

/-- `SUBN Vx,Vy` (R99): VF is NOT-borrow of `Vy - Vx`; the destination is still `Vx`. -/
def execSubnVxVy (x y : Reg) (s : State) : Result :=
  let a := s.reg x
  let b := s.reg y
  retire (s.setResultAndFlag x (b - a) (notBorrow b a))

/-- `SHR Vx` (R100): in place; the field `y` is not used (30_encoding.md R57). -/
def execShrVx (x _y : Reg) (s : State) : Result :=
  let a := s.reg x
  retire (s.setResultAndFlag x (a >>> 1) (shiftedOutRight a))

/-- `SHL Vx` (R101): in place; the field `y` is not used (30_encoding.md R57). -/
def execShlVx (x _y : Reg) (s : State) : Result :=
  let a := s.reg x
  retire (s.setResultAndFlag x (a <<< 1) (shiftedOutLeft a))

/-- `RND Vx,kk` (R102): `rnd` is the random input of this Step, a free value (log 1). -/
def execRndVxKk (x : Reg) (kk : Byte) (s : State) : Result :=
  retire (s.setReg x (s.input.rnd &&& kk))

end Sys2Proof.Machine
end

