-- ==== Sys2Proof/Machine/Control.lean ====
section
/-! DEFINITION. Control transfer (spec 41_control_transfer.md R80 to R88): RET, JP, CALL, SE, SNE,
JP V0. No delay slot, no alignment, no range check at the transfer (R88). -/

namespace Sys2Proof.Machine

/-- `RET` (R80). -/
def execRet (s : State) : Result :=
  if s.sp = 0 then raise .stackFault s
  else returnOk { s with pc := s.stack[s.sp.val], sp := s.sp - 1 }

/-- `JP addr` (R81). -/
def execJpAddr (nnn : Addr12) (s : State) : Result := returnOk (s.jump (zext16 nnn))

/-- `CALL addr` (R82): the first call writes `stack[1]`; the pushed address is `pc + 2`. -/
def execCallAddr (nnn : Addr12) (s : State) : Result :=
  if s.sp = 15 then raise .stackFault s
  else
    let sp := s.sp + 1
    returnOk { s with sp := sp, stack := s.stack.set sp.val (s.pc + 2), pc := zext16 nnn }

/-- `SE Vx,kk` (R83). -/
def execSeVxKk (x : Reg) (kk : Byte) (s : State) : Result :=
  returnOk (s.skipIf (s.reg x == kk))

/-- `SNE Vx,kk` (R84). -/
def execSneVxKk (x : Reg) (kk : Byte) (s : State) : Result :=
  returnOk (s.skipIf (s.reg x != kk))

/-- `SE Vx,Vy` (R85). -/
def execSeVxVy (x y : Reg) (s : State) : Result :=
  returnOk (s.skipIf (s.reg x == s.reg y))

/-- `SNE Vx,Vy` (R86). -/
def execSneVxVy (x y : Reg) (s : State) : Result :=
  returnOk (s.skipIf (s.reg x != s.reg y))

/-- `JP V0,addr` (R87): the 16-bit sum, not masked (the spec's D27; log 13). -/
def execJpV0Addr (nnn : Addr12) (s : State) : Result :=
  returnOk (s.jump (zext16 nnn + (s.reg 0).setWidth 16))

end Sys2Proof.Machine
end

