-- ==== Sys2Proof/Machine/Display.lean ====
section
/-! DEFINITION. The display compositor (spec 44_display.md R115 to R118): CLS and DRW. The loops are those
of R117's pseudocode. -/

namespace Sys2Proof.Machine

/-- The display rows (10_state.md R16). -/
abbrev Rows := Vector (BitVec 64) 32

/-- What DRW's loops carry: the display so far and the collision so far (R117). -/
structure Canvas where
  fb : Rows
  collision : Bool
  deriving DecidableEq, Repr

/-- A set sprite bit lands on the pixel in row `r`, column `c`: a collision if the pixel is 1, and the
pixel is flipped (R117). -/
def plot (r : Fin 32) (c : Fin 64) (cv : Canvas) : Canvas :=
  let row := cv.fb[r.val]
  { fb := cv.fb.set r.val (row ^^^ BitVec.twoPow 64 c.val)
    collision := cv.collision || row.getLsbD c.val }

/-- Sprite columns of one row: bit `7 - i` of the byte lands on column `(c0 + i) mod 64` (R115). The list
gives the columns still to draw. -/
def drawColumns (r : Fin 32) (c0 : Nat) (b : Byte) : List Nat → Canvas → Canvas
  | [], cv => cv
  | i :: is, cv =>
    drawColumns r c0 b is (if b.getLsbD (7 - i) then plot r (Fin.ofNat 64 (c0 + i)) cv else cv)

/-- One sprite row: the eight columns from left to right (R117). -/
def drawRow (r : Fin 32) (c0 : Nat) (b : Byte) (cv : Canvas) : Canvas :=
  drawColumns r c0 b [0, 1, 2, 3, 4, 5, 6, 7] cv

/-- The sprite's rows from row `r` on; the row wraps modulo 32 (R115). -/
def drawRows (c0 : Nat) : List Byte → Nat → Canvas → Canvas
  | [], _, cv => cv
  | b :: bs, r, cv => drawRows c0 bs (r + 1) (drawRow (Fin.ofNat 32 r) c0 b cv)

/-- `CLS` (R116): VF is not written. -/
def execCls (s : State) : Result := retire { s with fb := Vector.replicate 32 0 }

/-- `DRW Vx,Vy,n` (R117): the origin is read before VF is written; VF is always written. -/
def execDrwVxVyN (x y : Reg) (n : Fin 16) (s : State) : Result :=
  orRaise .memoryFault s (s.readBytes s.base n.val) fun bytes =>
    let c0 := (s.reg x).toNat % 64
    let r0 := (s.reg y).toNat % 32
    let cv := drawRows c0 bytes r0 ⟨s.fb, false⟩
    retire (State.setFlag { s with fb := cv.fb } cv.collision)

end Sys2Proof.Machine
end

