-- ==== Sys2Proof/Machine/IndexMemory.lean ====
section
/-! DEFINITION. Index register and memory (spec 43_index_memory.md R105 to R111). No instruction here
writes VF as a side effect, and the memory instructions leave `I` unchanged (R111). -/

namespace Sys2Proof.Machine

/-- `LD I,addr` (R105). -/
def execLdIAddr (nnn : Addr12) (s : State) : Result := retire (s.setIndex (zext16 nnn))

/-- `ADD I,Vx` (R106): modulo 4096, no flag. -/
def execAddIVx (x : Reg) (s : State) : Result :=
  retire (s.setIndex (s.i + (s.reg x).setWidth 16))

/-- `LD F,Vx` (R107): the glyph of the low nibble (the spec's D16). -/
def execLdFVx (x : Reg) (s : State) : Result :=
  retire (s.setIndex (glyphAddress (lowNibble (s.reg x))))

/-- `LD B,Vx` (R108): hundreds, tens, ones at `I`, `I+1`, `I+2`. -/
def execLdBVx (x : Reg) (s : State) : Result :=
  orRaise .memoryFault s (s.storeBytes s.base (bcdDigits (s.reg x))) retire

/-- `LD [I],Vx` (R109): `V[0]` to `V[x]` to memory from `I`. -/
def execLdMemVx (x : Reg) (s : State) : Result :=
  orRaise .memoryFault s (s.storeBytes s.base (s.regsUpTo x)) retire

/-- `LD Vx,[I]` (R110): memory from `I` to `V[0]` to `V[x]`. -/
def execLdVxMem (x : Reg) (s : State) : Result :=
  orRaise .memoryFault s (s.readBytes s.base (x.val + 1)) fun bs =>
    retire (State.setRegsFrom bs 0 s)

end Sys2Proof.Machine
end

