-- ==== Sys2Proof/Machine/TimersKeys.lean ====
section
/-! DEFINITION. Key and timer instructions (spec 45_timers_keys.md R120 to R125). -/

namespace Sys2Proof.Machine

/-- `SKP Vx` (R120): the key is the low nibble of `V[x]` (the spec's D17). -/
def execSkpVx (x : Reg) (s : State) : Result :=
  returnOk (s.skipIf (s.keyHeld (lowNibble (s.reg x))))

/-- `SKNP Vx` (R121). -/
def execSknpVx (x : Reg) (s : State) : Result :=
  returnOk (s.skipIf (!s.keyHeld (lowNibble (s.reg x))))

/-- `LD Vx,DT` (R122). -/
def execLdVxDt (x : Reg) (s : State) : Result := retire (s.setReg x s.dt)

/-- `LD Vx,K` (R123): only enters the waiting mode; `pc` is not advanced, `V[x]` not written and
`key_press` not examined. The Steps that follow are `waitStep` (Engine.lean). -/
def execLdVxK (x : Reg) (s : State) : Result := returnOk { s with mode := .awaitingKey x }

/-- `LD DT,Vx` (R124). -/
def execLdDtVx (x : Reg) (s : State) : Result := retire { s with dt := s.reg x }

/-- `LD ST,Vx` (R125): never a beep by itself. -/
def execLdStVx (x : Reg) (s : State) : Result := retire { s with st := s.reg x }

end Sys2Proof.Machine
end

