-- ==== Sys2Proof/Machine/Engine.lean ====
section
/-! DEFINITION. The operations of the host (spec 00_scope.md R7): the Step engine (40_step_engine.md R70
to R79), Tick (60_exceptions.md R141), Load (70_reset_and_hazards.md R151), FbRead (60_exceptions.md R145),
and Reset (Ops.lean). `ex` stands for `exec`, which Step.lean supplies. -/

namespace Sys2Proof.Machine

/-- Step while `Halted(kind)`: the same fault again, nothing changes (R71). -/
def haltedStep (kind : FaultKind) (s : State) : Result :=
  .next { s with report := .step (.fault kind) }

/-- Step while `AwaitingKey(x)`: no fetch; a reported press completes the wait, else nothing happens
(R72). -/
def waitStep (x : Reg) (s : State) : Result :=
  match s.input.keyPress with
  | some k => returnOk { s.setReg x (BitVec.ofNat 8 k.val) with mode := .running, pc := s.pc + 2 }
  | none => returnOk s

/-- An unknown opcode: a reported no-op (R76). -/
def unknownStep (op : Word) (s : State) : Result :=
  .next { s.advance with report := .step (.unknownOpcode op) }

/-- Step while `Running`: fetch, decode, execute (R70, R73, R74). -/
def runningStep (ex : Instr → State → Result) (s : State) : Result :=
  orRaise .memoryFault s s.fetch fun op =>
    match decodeWord op with
    | some i => ex i s
    | none => unknownStep op s

/-- The order of checks of 60_exceptions.md R137: halted, waiting, running. -/
def stepByMode (ex : Instr → State → Result) (s : State) : Result :=
  match s.mode with
  | .halted kind => haltedStep kind s
  | .awaitingKey x => waitStep x s
  | .running => runningStep ex s

/-- The inputs are presented to this Step, and the window of Load is over (R79,
70_reset_and_hazards.md R151). -/
def State.present (s : State) (input : StepInput) : State :=
  { s with input := input, loadWindow := false }

/-- `Step(keys_held, key_press, rnd)` (R70). -/
def stepOp (ex : Instr → State → Result) (input : StepInput) (s : State) : Result :=
  stepByMode ex (s.present input)

/-- The mode is `Halted` with some kind. -/
def Mode.isHalted : Mode → Bool
  | .halted _ => true
  | .running => false
  | .awaitingKey _ => false

/-- A timer counts down by one and stays at 0 (60_exceptions.md R141). -/
def countDown (t : Byte) : Byte := if t = 0 then 0 else t - 1

/-- `Tick()` (60_exceptions.md R141, R142): frozen while halted (the spec's D14); the beep is raised by
exactly the Tick that finds `ST = 1`. -/
def tickOp (s : State) : Result :=
  if s.mode.isHalted then .next { s with report := .tick false, loadWindow := false }
  else
    .next { s with
      dt := countDown s.dt, st := countDown s.st, report := .tick (s.st == 1), loadWindow := false }

/-- `Load(image)` (70_reset_and_hazards.md R151): outside its window no transition (log 4); too long an
image writes nothing and leaves the window open; a Load that returns `Ok` closes it. -/
def loadOp (image : List Byte) (s : State) : Result :=
  if s.loadWindow = false then .fault .loadOutsideWindow
  else if imageFits image = false then .next { s with report := .load .loadError }
  else
    .next { s with
      mem := s.mem.writeAll Config.loadBase image, report := .load .ok, loadWindow := false }

/-- `FbRead(r, c)` (60_exceptions.md R145): returns `fb[r][c]` in any mode and changes nothing. -/
def fbReadOp (r : Fin 32) (c : Fin 64) (s : State) : Result :=
  .next { s with report := .pixel (s.pixel r c) }

/-- One operation of the host (00_scope.md R7). -/
def runOp (ex : Instr → State → Result) (op : HostOp) (s : State) : Result :=
  match op with
  | .step input => stepOp ex input s
  | .tick => tickOp s
  | .load image => loadOp image s
  | .reset => resetOp s
  | .fbRead r c => fbReadOp r c s

/-- The free inputs of the k-th Step that the script does not give (log 1). -/
def freeInput (k : Nat) : StepInput :=
  ⟨Config.freeKeysHeld k, Config.freeKeyPress k, Config.freeRnd k⟩

/-- The host's next operation: the head of the script, or, when the script is empty, a Step with free
inputs (log 1, log 2). -/
def hostStep (ex : Instr → State → Result) (s : State) : Result :=
  match s.script with
  | op :: rest => runOp ex op { s with script := rest }
  | [] => stepOp ex (freeInput s.hostCount) { s with hostCount := s.hostCount + 1 }

/-- A script from its first Step on. -/
def fromFirstStep : List HostOp → List HostOp
  | [] => []
  | .step input :: rest => .step input :: rest
  | .tick :: rest => fromFirstStep rest
  | .load _ :: rest => fromFirstStep rest
  | .reset :: rest => fromFirstStep rest
  | .fbRead _ _ :: rest => fromFirstStep rest

/-- The state in which the next operation is a Step that fetches the word `op` and runs it: the word in
memory at `pc` (a `pc` from which no fetch succeeds becomes the load base), the mode running, the script at
its first Step (log 8). -/
def State.placeWord (s : State) (op : Word) : State :=
  let pc : Word := if s.pc.toNat ≤ 4094 then s.pc else BitVec.ofNat 16 Config.loadBase
  { s with
    pc := pc, mem := s.mem.writeAll pc.toNat (bytesOfWord op), mode := .running,
    script := fromFirstStep s.script }

end Sys2Proof.Machine
end

