-- ==== Sys2Proof/Machine/Step.lean ====
section
/-! DEFINITION. One step of the machine: one operation of the host (spec 00_scope.md R7, R8), in three
outcomes: a next state, a fault (only `loadOutsideWindow`), a refusal (none). -/

namespace Sys2Proof.Machine

/-- One step: the host's next operation (Engine.lean), with `exec` for the instructions. -/
def step (s : State) : Host.Outcome State Fault Refusal := hostStep exec s

/-- `s` with an instruction word, numbered as spec/opcode_table.json numbers it, stored where the next
Step fetches it (log 8). -/
def State.withFetchWord (s : State) (nbits w : Nat) : State := s.placeWord (tableWord nbits w)

end Sys2Proof.Machine
end

