-- ==== Sys2Proof/Safety.lean ====
section
/-! DEFINITION. The terms claims are stated in: the parts of the state one by one (spec 10_state.md R20), so
that a claim can say what changes and that nothing else does; the invariant of 10_state.md R22; and what a
sprite covers (44_display.md R115). -/

namespace Sys2Proof.Machine

/-- One part of the state: a register, a byte of memory, a pixel, and so on (R20). -/
inductive Part where
  | cell (a : Nat)
  | reg (x : Reg)
  | index
  | pc
  | sp
  | slot (k : Fin 16)
  | dt
  | st
  | pixel (r : Fin 32) (c : Fin 64)
  | mode
  /-- The model's own fields but `report`: script, inputs, counter, Load window. -/
  | hostSide
  deriving DecidableEq, Repr

/-- Both states hold the same in this part. Memory is compared by what reading a byte answers. -/
def SameIn (s t : State) : Part → Prop
  | .cell a => t.readByte a = s.readByte a
  | .reg x => t.reg x = s.reg x
  | .index => t.i = s.i
  | .pc => t.pc = s.pc
  | .sp => t.sp = s.sp
  | .slot k => t.stack[k.val] = s.stack[k.val]
  | .dt => t.dt = s.dt
  | .st => t.st = s.st
  | .pixel r c => t.pixel r c = s.pixel r c
  | .mode => t.mode = s.mode
  | .hostSide =>
    t.script = s.script ∧ t.input = s.input ∧ t.hostCount = s.hostCount
      ∧ t.loadWindow = s.loadWindow

/-- From `s` to `t` only the parts that `P` names may change; `report`, which every operation writes, is
not a part. -/
def OnlyChanges (P : Part → Prop) (s t : State) : Prop := ∀ p, ¬ P p → SameIn s t p

/-- The instruction completes from `s` in `t` and the Step returns Ok (40_step_engine.md R77). -/
def Completes (i : Instr) (s t : State) : Prop := exec i s = .next t ∧ t.report = .step .ok

/-- The instruction takes the fault `kind`: the mode and the outcome say so, nothing else changes
(40_step_engine.md R78). -/
def TakesFault (i : Instr) (kind : FaultKind) (s : State) : Prop :=
  exec i s = .next { s with mode := .halted kind, report := .step (.fault kind) }

/-- The invariant of 10_state.md R22, with what makes it inductive: the stack's slots hold addresses at
most 4096 (R82), slot 0 is never written (R14), and a waiting machine stands at an instruction that was
fetched (R22e). -/
structure State.Inv (s : State) : Prop where
  memory : s.mem.wf = true
  index : s.i.toNat ≤ 4095
  counter : s.pc.toNat ≤ 0x10FE
  slots : ∀ k : Fin 16, s.stack[k.val].toNat ≤ 4096
  base : s.stack[0] = 0
  waiting : ∀ x, s.mode = .awaitingKey x → s.pc.toNat ≤ 4094

/-- The sprite of `DRW Vx,Vy,n` executed in `s` has a set bit on the pixel in row `r`, column `c`: sprite row
`j` is the byte at `I + j`, its bit `7 - k` is sprite column `k`, and both coordinates wrap
(44_display.md R115). -/
def SpriteCovers (s : State) (x y : Reg) (n : Fin 16) (r : Fin 32) (c : Fin 64) : Prop :=
  ∃ j k : Nat, j < n.val ∧ k < 8 ∧ (s.mem.read (s.i.toNat + j)).getLsbD (7 - k) = true
    ∧ r.val = ((s.reg y).toNat % 32 + j) % 32 ∧ c.val = ((s.reg x).toNat % 64 + k) % 64

end Sys2Proof.Machine
end

