-- ==== Sys2Proof/Certificates/Slice0/Obligations.lean ====
section
/-! DEFINITION. The statements for the provers. Each says which rule of spec/ it formalises; where a clause
rests on a decision the spec marks as its own (92_eei_decisions.md D<n>), on its general knowledge
(93_implementation_defined.md G<n>) or on a choice of the model (log n), the docstring says so. -/

open Sys2Proof Sys2Proof.Machine

/-! ### Encoding (30_encoding.md) -/

/-- Words written out from R55's patterns, one of each format and class kind, decode as vector table T0
says; unlisted words are UNKNOWN (R56). The patterns but 6xkk are the spec's general knowledge (G1, G2;
log 5). -/
def Obligations.SpecWordsDecodeToTheirInstructions : Prop :=
  decodeWord 0x00E0 = some .cls ∧ decodeWord 0x00EE = some .ret ∧
  decodeWord 0x2ABC = some (.callAddr 0xABC) ∧ decodeWord 0x3F00 = some (.seVxKk 15 0x00) ∧
  decodeWord 0x6A3C = some (.ldVxKk 10 0x3C) ∧ decodeWord 0x8AB6 = some (.shrVx 10 11) ∧
  decodeWord 0x8AB7 = some (.subnVxVy 10 11) ∧ decodeWord 0xB123 = some (.jpV0Addr 0x123) ∧
  decodeWord 0xD125 = some (.drwVxVyN 1 2 5) ∧ decodeWord 0xE1A1 = some (.sknpVx 1) ∧
  decodeWord 0xF155 = some (.ldMemVx 1) ∧ decodeWord 0xF165 = some (.ldVxMem 1) ∧
  decodeWord 0x0000 = none ∧ decodeWord 0x5AB1 = none ∧ decodeWord 0x8AB8 = none ∧
  decodeWord 0xE19F = none ∧ decodeWord 0xF175 = none

/-- Decode and encode agree: every instruction, with every operand, is decoded from its word, and from
its two bytes in memory's order whatever follows them (R50, R53, R54; the patterns are log 5). -/
def Obligations.DecodeOfEncodeIsTheInstruction : Prop :=
  ∀ (i : Instr) (rest : List Byte),
    decodeWord (encode i) = some i ∧ decode (bytesOfWord (encode i) ++ rest) = .ok (i, rest)

/-- No two words decode alike: the word of what a word decodes to is that word, don't-care field included
(R54, R57, D10; the field is kept by the model's choice, log 18; the patterns are log 5). -/
def Obligations.EncodeOfDecodeIsTheWord : Prop :=
  ∀ (op : Word) (i : Instr), decodeWord op = some i → encode i = op

/-- The decision tree of R54 and the mask and match table of R55 know the same words: every other word is
UNKNOWN (R56), never the nearest instruction (D9; the patterns are log 5). -/
def Obligations.DecoderKnowsExactlyTheTablesWords : Prop :=
  ∀ op : Word, (decodeWord op).isSome = wordKnown op

/-- "the patterns of rule R55 are pairwise disjoint" (R54; the patterns are log 5). -/
def Obligations.OpcodePatternsAreDisjoint : Prop :=
  opcodeTable.Pairwise fun p q => ∀ op : Word, ¬(p.selects op = true ∧ q.selects op = true)

/-- The `y` field of SHR and SHL is a don't-care field (R57, D10): all its values execute alike. -/
def Obligations.ShiftsIgnoreTheSecondField : Prop :=
  ∀ (x y y' : Reg) (s : State),
    exec (.shrVx x y) s = exec (.shrVx x y') s ∧ exec (.shlVx x y) s = exec (.shlVx x y') s

/-! ### The step engine (40_step_engine.md) -/

/-- A Step of a running machine executes the instruction that the two bytes at `pc` decode to (R70, R73,
R74): with a Step scheduled, with its inputs; with nothing scheduled, with free inputs (log 1, log 2). Around
exec, a step presents the inputs (fresh at every Step, D2, D29) and closes the window of Load (D22, log 4),
nothing else; any `pc` both of whose bytes exist, odd ones too (D8). -/
def Obligations.RunningStepRunsTheDecodedInstruction : Prop :=
  ∀ (s : State) (i : Instr) (hi lo : Byte),
    s.mode = .running → s.readByte s.pc.toNat = some hi → s.readByte (s.pc.toNat + 1) = some lo →
    decodeWord (wordOfBytes hi lo) = some i →
    (∀ input rest, s.script = .step input :: rest →
      step s = exec i { s with script := rest, input := input, loadWindow := false }) ∧
    (s.script = [] →
      step s = exec i { s with
        input := freeInput s.hostCount, hostCount := s.hostCount + 1, loadWindow := false })

/-- An unknown word is reported and skipped, not a fault: "non-fatal, reported, PC still advances (treat as
a no-op instruction)" (R133). That exactly `pc + 2` changes and that the word is in the outcome is R76, the spec's
own decision D28 (log 13). -/
def Obligations.UnknownOpcodeIsNotAFault : Prop :=
  ∀ (s : State) (hi lo : Byte) (input : StepInput) (rest : List HostOp),
    s.mode = .running → s.readByte s.pc.toNat = some hi → s.readByte (s.pc.toNat + 1) = some lo →
    decodeWord (wordOfBytes hi lo) = none → s.script = .step input :: rest →
    ∃ t, step s = .next t ∧ t.report = .step (.unknownOpcode (wordOfBytes hi lo)) ∧
      t.pc = s.pc + 2 ∧ t.mode = .running ∧ OnlyChanges (fun p => p = .pc ∨ p = .hostSide) s t

/-- A fetch from above 4094 takes MemoryFault before anything else happens (R73, R137, D7): `pc` and all
other state unchanged. -/
def Obligations.FetchOutsideMemoryHalts : Prop :=
  ∀ (s : State) (input : StepInput) (rest : List HostOp),
    s.mode = .running → 4094 < s.pc.toNat → s.script = .step input :: rest →
    ∃ t, step s = .next t ∧ t.mode = .halted .memoryFault ∧
      t.report = .step (.fault .memoryFault) ∧
      OnlyChanges (fun p => p = .mode ∨ p = .hostSide) s t

/-- A Step of a waiting machine (R72, D18): without a press nothing changes; a press stores the key in the
waiting register, resumes the machine and advances `pc`. Held keys and the random byte play no part. -/
def Obligations.WaitingStepTakesOnlyAKeyPress : Prop :=
  ∀ (s : State) (x : Reg) (input : StepInput) (rest : List HostOp),
    s.mode = .awaitingKey x → s.script = .step input :: rest →
    (input.keyPress = none →
      ∃ t, step s = .next t ∧ t.report = .step .ok ∧ OnlyChanges (fun p => p = .hostSide) s t) ∧
    (∀ k : Key, input.keyPress = some k →
      ∃ t, step s = .next t ∧ t.report = .step .ok ∧ (t.reg x).toNat = k.val ∧
        t.mode = .running ∧ t.pc = s.pc + 2 ∧
        OnlyChanges (fun p => p = .reg x ∨ p = .mode ∨ p = .pc ∨ p = .hostSide) s t)

/-- A halted machine (R71, R139, R141, D14): a Step returns the same fault, a Tick returns no beep, an FbRead
still answers, and none of them changes the machine. -/
def Obligations.HaltedMachineOnlyReports : Prop :=
  ∀ (s : State) (kind : FaultKind) (op : HostOp) (rest : List HostOp),
    s.mode = .halted kind → s.script = op :: rest → op ≠ .reset → (∀ image, op ≠ .load image) →
    ∃ t, step s = .next t ∧ OnlyChanges (fun p => p = .hostSide) s t ∧
      (∀ input, op = .step input → t.report = .step (.fault kind)) ∧
      (op = .tick → t.report = .tick false) ∧
      (∀ r c, op = .fbRead r c → t.report = .pixel (s.pixel r c))

/-- The fetch (R35, R73): the word at `pc`, the byte at the lower address supplying bits 15 to 8, at any `pc`
from 0 to 4094, odd or even (R36, D8); from above it there is none (D7). -/
def Obligations.FetchIsBigEndianAtAnyAddress : Prop :=
  ∀ s : State,
    (s.pc.toNat ≤ 4094 → ∃ op hi lo, s.fetch = some op ∧ s.readByte s.pc.toNat = some hi ∧
      s.readByte (s.pc.toNat + 1) = some lo ∧ op.toNat = 256 * hi.toNat + lo.toNat) ∧
    (4094 < s.pc.toNat → s.fetch = none)

/-- Use of the inputs (R79): an instruction that is no SKP or SKNP does not depend on the held keys, one
that is no RND does not depend on the random byte, and none depends on the key press (D18, D29). -/
def Obligations.InputsReachOnlyTheirReaders : Prop :=
  ∀ (i : Instr) (s t : State) (input : StepInput),
    exec i s = .next t →
    ((∀ x, i ≠ .skpVx x ∧ i ≠ .sknpVx x) ∨ input.keysHeld = s.input.keysHeld) →
    ((∀ x kk, i ≠ .rndVxKk x kk) ∨ input.rnd = s.input.rnd) →
    exec i { s with input := input } = .next { t with input := input }

/-- The transitions of the mode (R17, D14): nothing but Reset leaves Halted; a waiting machine resumes only on
a key press (D18) and never halts; a running machine waits only by executing LD Vx,K and halts only in a
Step. -/
def Obligations.ModeChangesAreTheListedOnes : Prop :=
  ∀ (s t : State) (op : HostOp) (rest : List HostOp),
    s.script = op :: rest → step s = .next t →
    (op = .reset → t.mode = .running) ∧
    (op ≠ .reset →
      (∀ kind, s.mode = .halted kind → t.mode = .halted kind) ∧
      (∀ x, s.mode = .awaitingKey x → t.mode = .awaitingKey x ∨
        (t.mode = .running ∧ ∃ input k, op = .step input ∧ input.keyPress = some k)) ∧
      (s.mode = .running → ∀ x, t.mode = .awaitingKey x →
        ∃ input w, op = .step input ∧ s.fetch = some w ∧ decodeWord w = some (.ldVxK x)) ∧
      (s.mode = .running → ∀ kind, t.mode = .halted kind → ∃ input, op = .step input))

/-- Faults are precise (R78, R138, D13): whichever instruction halts a running machine, the mode and the
outcome say so and nothing else changes. -/
def Obligations.FaultsChangeOnlyTheMode : Prop :=
  ∀ (i : Instr) (s t : State) (kind : FaultKind),
    s.mode = .running → exec i s = .next t → t.mode = .halted kind →
    OnlyChanges (fun p => p = .mode) s t ∧ t.report = .step (.fault kind)

/-- The causes of the two faults in a running machine, exhaustively (R131, R132, D12): the listed
instructions in the listed states, and no other. -/
def Obligations.FaultCausesAreExactlyTheListed : Prop :=
  ∀ (i : Instr) (s : State), s.mode = .running →
    (TakesFault i .stackFault s ↔ (i = .ret ∧ s.sp = 0) ∨ ∃ nnn, i = .callAddr nnn ∧ s.sp = 15) ∧
    (TakesFault i .memoryFault s ↔
      (∃ x y n, i = .drwVxVyN x y n ∧ n ≠ 0 ∧ s.i.toNat + n.val - 1 > 4095) ∨
      (∃ x, i = .ldBVx x ∧ s.i.toNat + 2 > 4095) ∨
      (∃ x, (i = .ldMemVx x ∨ i = .ldVxMem x) ∧ s.i.toNat + x.val > 4095))

/-- A Step always answers, with exactly one outcome (R77), and the outcome is a fault exactly when the
machine is halted afterwards (R71, R78, D13, D14; taking a fault as a next state is the model's reading, log 3). -/
def Obligations.EveryStepReturnsOneOutcome : Prop :=
  ∀ (s : State) (input : StepInput) (rest : List HostOp), s.script = .step input :: rest →
    ∃ t outcome, step s = .next t ∧ t.report = .step outcome ∧
      ∀ kind, outcome = .fault kind ↔ t.mode = .halted kind

/-- The program counter of an instruction that completes and is no jump, call, return, skip or wait
(R75a). -/
def Obligations.OtherInstructionsAdvanceByTwo : Prop :=
  ∀ (i : Instr) (s t : State), Completes i s t →
    i ≠ .ret → (∀ n, i ≠ .jpAddr n ∧ i ≠ .callAddr n ∧ i ≠ .jpV0Addr n) →
    (∀ x kk, i ≠ .seVxKk x kk ∧ i ≠ .sneVxKk x kk) → (∀ x y, i ≠ .seVxVy x y ∧ i ≠ .sneVxVy x y) →
    (∀ x, i ≠ .skpVx x ∧ i ≠ .sknpVx x ∧ i ≠ .ldVxK x) →
    t.pc = s.pc + 2

/-! ### Control transfer (41_control_transfer.md) -/

/-- RET (R80): with a return address on the stack, `pc` is it and `sp` falls by one; with an empty stack,
StackFault, which changes only the mode (D12, D13). -/
def Obligations.ReturnPopsTheReturnAddress : Prop :=
  ∀ s : State,
    (s.sp ≠ 0 → ∃ t, Completes .ret s t ∧ t.pc = s.stack[s.sp.val] ∧ t.sp.val = s.sp.val - 1 ∧
      OnlyChanges (fun p => p = .pc ∨ p = .sp) s t) ∧
    (s.sp = 0 → TakesFault .ret .stackFault s)

/-- CALL (R82): below the 15th nested call it pushes `pc + 2` into the slot that `sp` moves to and jumps; at
the 16th, StackFault, which changes only the mode (D12, D13). -/
def Obligations.CallPushesTheReturnAddress : Prop :=
  ∀ (nnn : Addr12) (s : State),
    (s.sp ≠ 15 → ∃ t, Completes (.callAddr nnn) s t ∧ t.sp.val = s.sp.val + 1 ∧
      t.stack[t.sp.val] = s.pc + 2 ∧ t.pc.toNat = nnn.toNat ∧
      OnlyChanges (fun p => p = .pc ∨ p = .sp ∨ p = .slot t.sp) s t) ∧
    (s.sp = 15 → TakesFault (.callAddr nnn) .stackFault s)

/-- "CALL then RET restores PC to the instruction immediately following the CALL, and leaves the stack
pointer at its pre-call value" (R82, R80; vector E6), when fewer than 15 calls are open (D12). -/
def Obligations.CallThenReturnComesBack : Prop :=
  ∀ (nnn : Addr12) (s : State), s.sp ≠ 15 →
    ∃ t u, exec (.callAddr nnn) s = .next t ∧ exec .ret t = .next u ∧
      u.pc = s.pc + 2 ∧ u.sp = s.sp ∧ u.mode = s.mode

/-- JP (R81): `pc` is exactly the 12-bit address, nothing else changes. -/
def Obligations.JumpGoesToItsAddress : Prop :=
  ∀ (nnn : Addr12) (s : State), ∃ t, Completes (.jpAddr nnn) s t ∧ t.pc.toNat = nnn.toNat ∧
    OnlyChanges (fun p => p = .pc) s t

/-- JP V0 (R87): `pc` is the sum of the address and `V[0]` on naturals, not masked (D27). -/
def Obligations.JumpWithOffsetAddsVZero : Prop :=
  ∀ (nnn : Addr12) (s : State), ∃ t, Completes (.jpV0Addr nnn) s t ∧
    t.pc.toNat = nnn.toNat + (s.reg 0).toNat ∧ OnlyChanges (fun p => p = .pc) s t

/-- SE and SNE with a byte (R83, R84, D11): `pc + 4` when the condition holds, else `pc + 2`; nothing else
changes. -/
def Obligations.ByteSkipsCompareWithTheByte : Prop :=
  ∀ (x : Reg) (kk : Byte) (s : State),
    (∃ t, Completes (.seVxKk x kk) s t ∧
      t.pc = (if (s.reg x).toNat = kk.toNat then s.pc + 4 else s.pc + 2) ∧
      OnlyChanges (fun p => p = .pc) s t) ∧
    (∃ t, Completes (.sneVxKk x kk) s t ∧
      t.pc = (if (s.reg x).toNat = kk.toNat then s.pc + 2 else s.pc + 4) ∧
      OnlyChanges (fun p => p = .pc) s t)

/-- SE and SNE with a register (R85, R86, D11). -/
def Obligations.RegisterSkipsCompareTheRegisters : Prop :=
  ∀ (x y : Reg) (s : State),
    (∃ t, Completes (.seVxVy x y) s t ∧
      t.pc = (if (s.reg x).toNat = (s.reg y).toNat then s.pc + 4 else s.pc + 2) ∧
      OnlyChanges (fun p => p = .pc) s t) ∧
    (∃ t, Completes (.sneVxVy x y) s t ∧
      t.pc = (if (s.reg x).toNat = (s.reg y).toNat then s.pc + 2 else s.pc + 4) ∧
      OnlyChanges (fun p => p = .pc) s t)

/-- SKP and SKNP (R120, R121, D11): they test the bit of `keys_held` that the low nibble of `V[x]` names
(D17). -/
def Obligations.KeySkipsTestTheHeldKey : Prop :=
  ∀ (x : Reg) (s : State),
    (∃ t, Completes (.skpVx x) s t ∧
      t.pc = (if s.input.keysHeld.getLsbD ((s.reg x).toNat % 16) then s.pc + 4 else s.pc + 2) ∧
      OnlyChanges (fun p => p = .pc) s t) ∧
    (∃ t, Completes (.sknpVx x) s t ∧
      t.pc = (if s.input.keysHeld.getLsbD ((s.reg x).toNat % 16) then s.pc + 2 else s.pc + 4) ∧
      OnlyChanges (fun p => p = .pc) s t)

/-! ### Registers and arithmetic (42_alu.md) -/

/-- LD Vx,kk (R91), with its encoding 6xkk, the one the source confirms. -/
def Obligations.LoadByteWritesTheByte : Prop :=
  ∀ (x : Reg) (kk : Byte) (s : State),
    decodeWord (0x6#4 ++ (BitVec.ofNat 4 x.val ++ kk)) = some (.ldVxKk x kk) ∧
    ∃ t, Completes (.ldVxKk x kk) s t ∧ t.reg x = kk ∧ t.pc = s.pc + 2 ∧
      OnlyChanges (fun p => p = .reg x ∨ p = .pc) s t

/-- ADD Vx,kk (R92): the sum modulo 256, no flag. -/
def Obligations.AddByteWrapsWithoutAFlag : Prop :=
  ∀ (x : Reg) (kk : Byte) (s : State), ∃ t, Completes (.addVxKk x kk) s t ∧
    (t.reg x).toNat = ((s.reg x).toNat + kk.toNat) % 256 ∧ t.pc = s.pc + 2 ∧
    OnlyChanges (fun p => p = .reg x ∨ p = .pc) s t

/-- LD, OR, AND, XOR Vx,Vy (R93 to R96): bit by bit, no flag; `x = 15` and `x = y` included. -/
def Obligations.MoveAndLogicWorkBitByBit : Prop :=
  ∀ (x y : Reg) (s : State),
    (∃ t, Completes (.ldVxVy x y) s t ∧ t.reg x = s.reg y ∧ t.pc = s.pc + 2 ∧
      OnlyChanges (fun p => p = .reg x ∨ p = .pc) s t) ∧
    (∃ t, Completes (.orVxVy x y) s t ∧ t.pc = s.pc + 2 ∧
      (∀ k, (t.reg x).getLsbD k = ((s.reg x).getLsbD k || (s.reg y).getLsbD k)) ∧
      OnlyChanges (fun p => p = .reg x ∨ p = .pc) s t) ∧
    (∃ t, Completes (.andVxVy x y) s t ∧ t.pc = s.pc + 2 ∧
      (∀ k, (t.reg x).getLsbD k = ((s.reg x).getLsbD k && (s.reg y).getLsbD k)) ∧
      OnlyChanges (fun p => p = .reg x ∨ p = .pc) s t) ∧
    (∃ t, Completes (.xorVxVy x y) s t ∧ t.pc = s.pc + 2 ∧
      (∀ k, (t.reg x).getLsbD k = ((s.reg x).getLsbD k ^^ (s.reg y).getLsbD k)) ∧
      OnlyChanges (fun p => p = .reg x ∨ p = .pc) s t)

/-- ADD Vx,Vy (R97, R103): the sum modulo 256 and the carry in VF; with `x = 15` the flag is what stays (R90,
D15). -/
def Obligations.AddRegistersGivesSumAndCarry : Prop :=
  ∀ (x y : Reg) (s : State), ∃ t, Completes (.addVxVy x y) s t ∧
    (x ≠ 15 → (t.reg x).toNat = ((s.reg x).toNat + (s.reg y).toNat) % 256) ∧
    t.reg 15 = (if 256 ≤ (s.reg x).toNat + (s.reg y).toNat then 1 else 0) ∧ t.pc = s.pc + 2 ∧
    OnlyChanges (fun p => p = .reg x ∨ p = .reg 15 ∨ p = .pc) s t

/-- SUB and SUBN Vx,Vy (R98, R99, R103): the difference modulo 256 into `V[x]` and NOT-borrow in VF; with
`x = 15` the flag is what stays (R90, D15). -/
def Obligations.SubtractionsGiveDifferenceAndNotBorrow : Prop :=
  ∀ (x y : Reg) (s : State),
    (∃ t, Completes (.subVxVy x y) s t ∧
      (x ≠ 15 → (t.reg x).toNat = (if (s.reg y).toNat ≤ (s.reg x).toNat
        then (s.reg x).toNat - (s.reg y).toNat else (s.reg x).toNat + 256 - (s.reg y).toNat)) ∧
      t.reg 15 = (if (s.reg y).toNat ≤ (s.reg x).toNat then 1 else 0) ∧ t.pc = s.pc + 2 ∧
      OnlyChanges (fun p => p = .reg x ∨ p = .reg 15 ∨ p = .pc) s t) ∧
    (∃ t, Completes (.subnVxVy x y) s t ∧
      (x ≠ 15 → (t.reg x).toNat = (if (s.reg x).toNat ≤ (s.reg y).toNat
        then (s.reg y).toNat - (s.reg x).toNat else (s.reg y).toNat + 256 - (s.reg x).toNat)) ∧
      t.reg 15 = (if (s.reg x).toNat ≤ (s.reg y).toNat then 1 else 0) ∧ t.pc = s.pc + 2 ∧
      OnlyChanges (fun p => p = .reg x ∨ p = .reg 15 ∨ p = .pc) s t)

/-- SHR and SHL Vx (R100, R101): halve, or double modulo 256, and the bit shifted out in VF; `V[y]` plays no
part (R57, D10); with `x = 15` the flag is what stays (R90, D15). -/
def Obligations.ShiftsGiveResultAndShiftedOutBit : Prop :=
  ∀ (x y : Reg) (s : State),
    (∃ t, Completes (.shrVx x y) s t ∧
      (x ≠ 15 → (t.reg x).toNat = (s.reg x).toNat / 2) ∧
      (t.reg 15).toNat = (s.reg x).toNat % 2 ∧ t.pc = s.pc + 2 ∧
      OnlyChanges (fun p => p = .reg x ∨ p = .reg 15 ∨ p = .pc) s t) ∧
    (∃ t, Completes (.shlVx x y) s t ∧
      (x ≠ 15 → (t.reg x).toNat = 2 * (s.reg x).toNat % 256) ∧
      (t.reg 15).toNat = (s.reg x).toNat / 128 ∧ t.pc = s.pc + 2 ∧
      OnlyChanges (fun p => p = .reg x ∨ p = .reg 15 ∨ p = .pc) s t)

/-- RND Vx,kk (R102): the AND of the Step's random byte and `kk`, whatever the byte is (D29). -/
def Obligations.RandomIsMaskedByTheByte : Prop :=
  ∀ (x : Reg) (kk : Byte) (s : State), ∃ t, Completes (.rndVxKk x kk) s t ∧
    (∀ k, (t.reg x).getLsbD k = (s.input.rnd.getLsbD k && kk.getLsbD k)) ∧ t.pc = s.pc + 2 ∧
    OnlyChanges (fun p => p = .reg x ∨ p = .pc) s t

/-- VF as a side effect (R11): an instruction that is none of the six flag-writing ones and whose
destination is not VF leaves VF as it was, and so does a fault (D13). -/
def Obligations.OnlySixInstructionsWriteTheFlagAside : Prop :=
  ∀ (i : Instr) (s t : State), exec i s = .next t →
    (∀ x y, i ≠ .addVxVy x y ∧ i ≠ .subVxVy x y ∧ i ≠ .subnVxVy x y ∧ i ≠ .shrVx x y ∧
      i ≠ .shlVx x y) →
    (∀ x y n, i ≠ .drwVxVyN x y n) →
    (∀ kk, i ≠ .ldVxKk 15 kk ∧ i ≠ .addVxKk 15 kk ∧ i ≠ .rndVxKk 15 kk) →
    (∀ y, i ≠ .ldVxVy 15 y ∧ i ≠ .orVxVy 15 y ∧ i ≠ .andVxVy 15 y ∧ i ≠ .xorVxVy 15 y) →
    i ≠ .ldVxDt 15 → i ≠ .ldVxMem 15 →
    t.reg 15 = s.reg 15

/-! ### Index and memory (43_index_memory.md) -/

/-- LD I, ADD I, LD F (R105, R106, R107): the address; the sum modulo 4096 without a flag; the address of
the glyph of the low nibble (D16), with `FONT_BASE` 0x050 (D4; log 6). -/
def Obligations.IndexWritersSetTheIndex : Prop :=
  ∀ (nnn : Addr12) (x : Reg) (s : State),
    (∃ t, Completes (.ldIAddr nnn) s t ∧ t.i.toNat = nnn.toNat ∧ t.pc = s.pc + 2 ∧
      OnlyChanges (fun p => p = .index ∨ p = .pc) s t) ∧
    (∃ t, Completes (.addIVx x) s t ∧ t.i.toNat = (s.i.toNat + (s.reg x).toNat) % 4096 ∧
      t.pc = s.pc + 2 ∧ OnlyChanges (fun p => p = .index ∨ p = .pc) s t) ∧
    (∃ t, Completes (.ldFVx x) s t ∧ t.i.toNat = 0x050 + 5 * ((s.reg x).toNat % 16) ∧
      t.pc = s.pc + 2 ∧ OnlyChanges (fun p => p = .index ∨ p = .pc) s t)

/-- LD B,Vx (R108): hundreds, tens and ones at `I`, `I+1`, `I+2` and no other byte; MemoryFault when
`I > 4093`, which changes only the mode (D13). -/
def Obligations.BcdStoresHundredsTensOnes : Prop :=
  ∀ (x : Reg) (s : State), s.mem.wf = true →
    (s.i.toNat ≤ 4093 → ∃ t, Completes (.ldBVx x) s t ∧
      t.readByte s.base = some (BitVec.ofNat 8 ((s.reg x).toNat / 100)) ∧
      t.readByte (s.base + 1) = some (BitVec.ofNat 8 ((s.reg x).toNat / 10 % 10)) ∧
      t.readByte (s.base + 2) = some (BitVec.ofNat 8 ((s.reg x).toNat % 10)) ∧
      t.pc = s.pc + 2 ∧
      OnlyChanges (fun p => p = .pc ∨ ∃ k < 3, p = .cell (s.base + k)) s t) ∧
    (4093 < s.i.toNat → TakesFault (.ldBVx x) .memoryFault s)

/-- LD [I],Vx (R109): `V[0]` to `V[x]` at `I` to `I + x` and no other byte; MemoryFault when
`I + x > 4095`, which changes only the mode (D13). -/
def Obligations.BlockStoreCopiesRegistersToMemory : Prop :=
  ∀ (x : Reg) (s : State), s.mem.wf = true →
    (s.i.toNat + x.val ≤ 4095 → ∃ t, Completes (.ldMemVx x) s t ∧
      (∀ k : Reg, k ≤ x → t.readByte (s.base + k.val) = some (s.reg k)) ∧ t.pc = s.pc + 2 ∧
      OnlyChanges (fun p => p = .pc ∨ ∃ k ≤ x.val, p = .cell (s.base + k)) s t) ∧
    (4095 < s.i.toNat + x.val → TakesFault (.ldMemVx x) .memoryFault s)

/-- LD Vx,[I] (R110): the bytes at `I` to `I + x` into `V[0]` to `V[x]` and no other register; `I` and memory
unchanged; MemoryFault when `I + x > 4095`, which changes only the mode (D13). -/
def Obligations.BlockLoadCopiesMemoryToRegisters : Prop :=
  ∀ (x : Reg) (s : State),
    (s.i.toNat + x.val ≤ 4095 → ∃ t, Completes (.ldVxMem x) s t ∧
      (∀ k : Reg, k ≤ x → some (t.reg k) = s.readByte (s.i.toNat + k.val)) ∧ t.pc = s.pc + 2 ∧
      OnlyChanges (fun p => p = .pc ∨ ∃ k ≤ x, p = .reg k) s t) ∧
    (4095 < s.i.toNat + x.val → TakesFault (.ldVxMem x) .memoryFault s)

/-- A block store and then a block load of the same registers gives them back, whatever happened to the
register file in between (R109, R110). -/
def Obligations.BlockLoadUndoesBlockStore : Prop :=
  ∀ (x : Reg) (s : State) (v : Vector Byte 16), s.mem.wf = true → s.i.toNat + x.val ≤ 4095 →
    ∃ t u, Completes (.ldMemVx x) s t ∧ Completes (.ldVxMem x) { t with v := v } u ∧
      (∀ k : Reg, k ≤ x → u.reg k = s.reg k) ∧ (∀ k : Reg, x < k → u.reg k = v[k.val]) ∧ u.i = s.i

/-- "A store by `LD B,Vx` or `LD [I],Vx` is therefore seen by every later fetch, starting with the very next
Step" (R41): a block store over the bytes at the next `pc` is what the next fetch reads, at an
odd `pc` too (D8). -/
def Obligations.StoreIsSeenByTheNextFetch : Prop :=
  ∀ (x : Reg) (s t : State) (k : Nat), s.mem.wf = true →
    Completes (.ldMemVx x) s t → k + 1 ≤ x.val → t.pc.toNat = s.i.toNat + k →
    t.fetch = some (wordOfBytes (s.reg (Fin.ofNat 16 k)) (s.reg (Fin.ofNat 16 (k + 1))))

/-- Who writes what (R12, R14, R15, R16, R20, R43): `I` only LD I, ADD I, LD F; the stack and `sp` only CALL
and RET; memory only LD B and LD [I]; the display only CLS and DRW; DT only LD DT; ST only LD ST. -/
def Obligations.EachComponentHasOnlyItsWriters : Prop :=
  ∀ (i : Instr) (s t : State), exec i s = .next t →
    ((∀ nnn, i ≠ .ldIAddr nnn) → (∀ x, i ≠ .addIVx x ∧ i ≠ .ldFVx x) → t.i = s.i) ∧
    (i ≠ .ret → (∀ nnn, i ≠ .callAddr nnn) → t.sp = s.sp ∧ t.stack = s.stack) ∧
    ((∀ x, i ≠ .ldBVx x ∧ i ≠ .ldMemVx x) → ∀ a, t.readByte a = s.readByte a) ∧
    (i ≠ .cls → (∀ x y n, i ≠ .drwVxVyN x y n) → ∀ r c, t.pixel r c = s.pixel r c) ∧
    ((∀ x, i ≠ .ldDtVx x) → t.dt = s.dt) ∧
    ((∀ x, i ≠ .ldStVx x) → t.st = s.st)

/-! ### The display (44_display.md) -/

/-- CLS (R116): every pixel 0, VF and everything else untouched. -/
def Obligations.ClearTurnsEveryPixelOff : Prop :=
  ∀ s : State, ∃ t, Completes .cls s t ∧ (∀ r c, t.pixel r c = false) ∧ t.pc = s.pc + 2 ∧
    OnlyChanges (fun p => p = .pc ∨ ∃ r c, p = .pixel r c) s t

/-- DRW (R117, R115, R118d): when the sprite lies in memory, a pixel is on afterwards iff exactly one of "it
was on" and "a set sprite bit landed on it" holds, VF is 1 iff some pixel went from 1 to 0, and nothing else
changes; with `n = 0` it draws nothing, writes VF 0 and cannot fault (D25). -/
def Obligations.DrawXorsTheSpriteAndReportsCollision : Prop :=
  ∀ (x y : Reg) (n : Fin 16) (s : State), (n = 0 ∨ s.i.toNat + n.val - 1 ≤ 4095) →
    ∃ t, Completes (.drwVxVyN x y n) s t ∧
      (∀ r c, t.pixel r c = true ↔ ¬(s.pixel r c = true ↔ SpriteCovers s x y n r c)) ∧
      ((∃ r c, s.pixel r c = true ∧ t.pixel r c = false) → t.reg 15 = 1) ∧
      ((∀ r c, s.pixel r c = true → t.pixel r c = true) → t.reg 15 = 0) ∧
      t.pc = s.pc + 2 ∧
      OnlyChanges (fun p => p = .reg 15 ∨ p = .pc ∨ ∃ r c, p = .pixel r c) s t

/-- DRW past the end of memory (R117, D13): MemoryFault, and neither the display nor VF changes. -/
def Obligations.DrawPastMemoryFaults : Prop :=
  ∀ (x y : Reg) (n : Fin 16) (s : State), n ≠ 0 → 4095 < s.i.toNat + n.val - 1 →
    TakesFault (.drwVxVyN x y n) .memoryFault s

/-- "drawing the identical sprite twice at the same coordinates" restores the display whatever was there
(R118b, R118c; derived by the spec from R117; `n = 0` by D25); the coordinates are registers other than VF, which the first
draw overwrites. -/
def Obligations.DrawingTwiceRestoresTheDisplay : Prop :=
  ∀ (x y : Reg) (n : Fin 16) (s : State), x ≠ 15 → y ≠ 15 →
    (n = 0 ∨ s.i.toNat + n.val - 1 ≤ 4095) →
    ∃ t u, Completes (.drwVxVyN x y n) s t ∧ Completes (.drwVxVyN x y n) t u ∧
      (∀ r c, u.pixel r c = s.pixel r c) ∧
      ((∀ r c, s.pixel r c = false) → (∃ r c, SpriteCovers s x y n r c) → u.reg 15 = 1)

/-- "CLS followed by any DRW yields zero collisions (VF=0)" (R118a; `n = 0` by D25). -/
def Obligations.DrawAfterClearNeverCollides : Prop :=
  ∀ (x y : Reg) (n : Fin 16) (s : State), (n = 0 ∨ s.i.toNat + n.val - 1 ≤ 4095) →
    ∃ t u, exec .cls s = .next t ∧ exec (.drwVxVyN x y n) t = .next u ∧ u.reg 15 = 0

/-! ### Keys and timers (45_timers_keys.md) -/

/-- LD Vx,DT, LD DT,Vx, LD ST,Vx (R122, R124, R125): the byte moves, nothing else changes, and the Step
returns Ok, never a beep (D20). -/
def Obligations.TimerMovesCopyTheByte : Prop :=
  ∀ (x : Reg) (s : State),
    (∃ t, Completes (.ldVxDt x) s t ∧ t.reg x = s.dt ∧ t.pc = s.pc + 2 ∧
      OnlyChanges (fun p => p = .reg x ∨ p = .pc) s t) ∧
    (∃ t, Completes (.ldDtVx x) s t ∧ t.dt = s.reg x ∧ t.pc = s.pc + 2 ∧
      OnlyChanges (fun p => p = .dt ∨ p = .pc) s t) ∧
    (∃ t, Completes (.ldStVx x) s t ∧ t.st = s.reg x ∧ t.pc = s.pc + 2 ∧
      OnlyChanges (fun p => p = .st ∨ p = .pc) s t)

/-- LD Vx,K (R123, D18): the Step that executes it only enters the waiting mode; `pc`, `V[x]` and all else stay. -/
def Obligations.WaitKeyOnlyEntersTheWait : Prop :=
  ∀ (x : Reg) (s : State), ∃ t, Completes (.ldVxK x) s t ∧ t.mode = .awaitingKey x ∧
    OnlyChanges (fun p => p = .mode) s t

/-- The sound timer is write-only for the program (R15: "cannot be read by any instruction"), and DT is read
by LD Vx,DT only: no other instruction's effect depends on their values. -/
def Obligations.TimersAreReadOnlyByTheirReader : Prop :=
  ∀ (i : Instr) (s t : State) (v w : Byte), exec i s = .next t →
    ((∀ x, i ≠ .ldStVx x) → exec i { s with st := v } = .next { t with st := v }) ∧
    (∀ x, i = .ldStVx x → exec i { s with st := v } = .next t) ∧
    ((∀ x, i ≠ .ldVxDt x ∧ i ≠ .ldDtVx x) → exec i { s with dt := w } = .next { t with dt := w }) ∧
    (∀ x, i = .ldDtVx x → exec i { s with dt := w } = .next t)

/-! ### The operations of the host (60_exceptions.md, 70_reset_and_hazards.md) -/

/-- Tick (R141): in a machine that is not halted, running or waiting (D19), each timer falls by one and never
below 0, independently, and nothing else of the machine changes. -/
def Obligations.TickCountsEachTimerDown : Prop :=
  ∀ (s : State) (rest : List HostOp), s.script = .tick :: rest → (∀ kind, s.mode ≠ .halted kind) →
    ∃ t, step s = .next t ∧ t.dt.toNat = s.dt.toNat - 1 ∧ t.st.toNat = s.st.toNat - 1 ∧
      OnlyChanges (fun p => p = .dt ∨ p = .st ∨ p = .hostSide) s t

/-- The beep (R142): the return value of Tick, true for exactly the Tick that finds `ST = 1` and leaves
`ST = 0`, false for every other Tick, while waiting (D19) and while halted (D14) too. That no Step returns one, LD
ST,Vx among them, is the spec's own decision D20 (log 13). -/
def Obligations.BeepIsExactlyTheTickFromOneToZero : Prop :=
  ∀ (s : State) (op : HostOp) (rest : List HostOp), s.script = op :: rest →
    (op = .tick → ∃ t beep, step s = .next t ∧ t.report = .tick beep ∧
      (beep = true ↔ s.st = 1 ∧ t.st = 0)) ∧
    (∀ input t beep, op = .step input → step s = .next t → t.report ≠ .tick beep)

/-- Load in its window (R151): at most 3584 bytes go verbatim to 0x200 and up, no other byte of memory changes,
and the window closes (D22, kept in the model's field `loadWindow`, log 4). -/
def Obligations.LoadCopiesTheImageVerbatim : Prop :=
  ∀ (s : State) (image : List Byte) (rest : List HostOp),
    s.script = .load image :: rest → s.loadWindow = true → s.mem.wf = true → image.length ≤ 3584 →
    ∃ t, step s = .next t ∧ t.report = .load .ok ∧ t.loadWindow = false ∧
      (∀ k, (h : k < image.length) → t.readByte (0x200 + k) = some image[k]) ∧
      OnlyChanges (fun p => p = .hostSide ∨ ∃ k < image.length, p = .cell (0x200 + k)) s t

/-- LoadError (R134): "program image exceeds memory capacity": an outcome of Load before any execution; the
machine stays as Reset left it. That the window of Load stays open is the spec's own decision (R151, D22), kept
in the model's field `loadWindow` (log 4). -/
def Obligations.TooLongImageIsALoadError : Prop :=
  ∀ (s : State) (image : List Byte) (rest : List HostOp),
    s.script = .load image :: rest → s.loadWindow = true → 3584 < image.length →
    ∃ t, step s = .next t ∧ t.report = .load .loadError ∧ t.loadWindow = true ∧
      OnlyChanges (fun p => p = .hostSide) s t

/-- The window of Load (R151, D22): a Load outside it has no transition (the model stops with a fault of its
own name, log 4); Reset opens it, a Step, a Tick or a Load that returns Ok closes it, an FbRead leaves it. -/
def Obligations.LoadIsLegalOnlyInItsWindow : Prop :=
  ∀ (s : State) (op : HostOp) (rest : List HostOp), s.script = op :: rest →
    (∀ image, op = .load image → s.loadWindow = false → step s = .fault .loadOutsideWindow) ∧
    (∀ t, step s = .next t →
      (op = .reset → t.loadWindow = true) ∧ (op = .tick → t.loadWindow = false) ∧
      (∀ input, op = .step input → t.loadWindow = false) ∧
      (∀ image, op = .load image → t.report = .load .ok → t.loadWindow = false) ∧
      (∀ r c, op = .fbRead r c → t.loadWindow = s.loadWindow))

/-- Reset from any state and in any mode (R150, R21): memory zero but the 80 glyph bytes, registers, `I`, `sp`,
stack, timers and display zero, `pc` 0x200, Running. The values the source does not name are the spec's D6,
the glyphs and their place its D4 and D5 (log 6, log 7). -/
def Obligations.ResetPutsEveryComponentAtItsResetValue : Prop :=
  ∀ (s : State) (rest : List HostOp), s.script = .reset :: rest →
    ∃ t, step s = .next t ∧ (∀ x, t.reg x = 0) ∧ t.i = 0 ∧ t.pc = 0x0200 ∧ t.sp = 0 ∧
      (∀ k : Fin 16, t.stack[k.val] = 0) ∧ t.dt = 0 ∧ t.st = 0 ∧
      (∀ r c, t.pixel r c = false) ∧ t.mode = .running ∧
      (∀ a, a ≤ 4095 → a < 0x050 ∨ 0x09F < a → t.readByte a = some 0x00) ∧
      (∀ d j : Nat, d < 16 → j < 5 →
        t.readByte (0x050 + 5 * d + j) = some (glyphByte d j)) ∧
      (∀ a, 4095 < a → t.readByte a = none)

/-- FbRead (R145): returns `fb[r][c]` in any mode, halted too (D14), and changes nothing; the port is the spec's D2. -/
def Obligations.FrameBufferReadChangesNothing : Prop :=
  ∀ (s : State) (r : Fin 32) (c : Fin 64) (rest : List HostOp), s.script = .fbRead r c :: rest →
    ∃ t, step s = .next t ∧ t.report = .pixel (s.pixel r c) ∧ t.script = rest ∧
      OnlyChanges (fun p => p = .hostSide) s t ∧ t.input = s.input ∧ t.hostCount = s.hostCount ∧
      t.loadWindow = s.loadWindow

/-- The parked program (R158, derived by the spec from R81): a running machine whose word at `pc` is `JP pc`
is unchanged by a Step, whatever the inputs, at an odd `pc` too (D8). -/
def Obligations.JumpToItselfIsAFixedPoint : Prop :=
  ∀ (s : State) (nnn : Addr12) (input : StepInput) (rest : List HostOp),
    s.mode = .running → s.pc.toNat = nnn.toNat → s.pc.toNat ≤ 4094 →
    s.fetch = some (encode (.jpAddr nnn)) → s.script = .step input :: rest →
    ∃ t, step s = .next t ∧ t.report = .step .ok ∧ OnlyChanges (fun p => p = .hostSide) s t

/-! ### The invariant (10_state.md R22) -/

/-- The reset state meets the invariant. -/
def Obligations.ResetMeetsTheInvariant : Prop := State.reset.Inv

/-- Every step keeps the invariant (R22a, R22b, R22c, with R14's slot 0 and memory's canonical form): from every
state that meets it, whatever the host does. The bounds rest on the spec's D7, D12 and D27, memory's form on log 10. -/
def Obligations.StepKeepsTheInvariant : Prop :=
  ∀ s t : State, s.Inv → step s = .next t → t.Inv

/-! ### The timers, over instructions and operations (10_state.md R15) -/

/-- The timers (R15). DT is read by LD Vx,DT and written by LD DT,Vx; ST is written by LD ST,Vx and no instruction
reads it, so that from another ST everything but ST comes out the same. A Tick decrements both, never below 0;
no other operation but a Reset changes one, except a Step that executes the instruction that writes it. Neither
is in memory: no byte reads as a timer, and storing a byte changes none. The decrement is stated for a running
machine: what a Tick does while waiting or halted is decisions D19 and D14 (TickCountsEachTimerDown,
HaltedMachineOnlyReports). -/
def Obligations.TimersAreCountersThatOnlyTicksDecrement : Prop :=
  (∀ (x : Reg) (s : State),
    (∃ t, Completes (.ldVxDt x) s t ∧ t.reg x = s.dt) ∧
    (∃ t, Completes (.ldDtVx x) s t ∧ t.dt = s.reg x) ∧
    (∃ t, Completes (.ldStVx x) s t ∧ t.st = s.reg x)) ∧
  (∀ (i : Instr) (s t : State) (v : Byte), exec i s = .next t →
    ∃ w, exec i { s with st := v } = .next { t with st := w }) ∧
  (∀ (s : State) (rest : List HostOp), s.script = .tick :: rest → s.mode = .running →
    ∃ t, step s = .next t ∧ t.dt.toNat = s.dt.toNat - 1 ∧ t.st.toNat = s.st.toNat - 1) ∧
  (∀ (s t : State) (op : HostOp) (rest : List HostOp),
    s.script = op :: rest → op ≠ .tick → op ≠ .reset → step s = .next t →
    (t.dt = s.dt ∨ ∃ input w x, op = .step input ∧ s.mode = .running ∧ s.fetch = some w ∧
      decodeWord w = some (.ldDtVx x) ∧ t.dt = s.reg x) ∧
    (t.st = s.st ∨ ∃ input w x, op = .step input ∧ s.mode = .running ∧ s.fetch = some w ∧
      decodeWord w = some (.ldStVx x) ∧ t.st = s.reg x)) ∧
  (∀ (s t : State) (v w : Byte) (a : Nat) (b : Byte),
    ({ s with dt := v, st := w } : State).readByte a = s.readByte a ∧
    (s.writeByte a b = some t → t.dt = s.dt ∧ t.st = s.st))
end

