-- ==== Sys2Proof/Laws/Display.lean ====
section
/-! SUPPORT. The spec lemmas of the compositor's loops (44_display.md R115, R117): what one plot, one sprite
row and a whole sprite do to a pixel and to the collision flag. -/

namespace Sys2Proof.Machine

/-- A pixel of a canvas. -/
def Canvas.pixel (cv : Canvas) (r : Fin 32) (c : Fin 64) : Bool := cv.fb[r.val].getLsbD c.val

/-- A plot flips its pixel and no other. -/
theorem Canvas.pixel_plot (cv : Canvas) (r r' : Fin 32) (c c' : Fin 64) :
    (plot r c cv).pixel r' c' = (cv.pixel r' c' ^^ (decide (r' = r) && decide (c' = c))) := by
  by_cases hr : r' = r
  · subst hr
    simp [Canvas.pixel, plot, eq_comm, Fin.val_inj]
  · have : r.val ≠ r'.val := fun h => hr (Fin.ext h.symm)
    simp [Canvas.pixel, plot, Vector.getElem_set_ne, this, hr]

/-- A plot records a collision when its pixel was on. -/
theorem Canvas.collision_plot (cv : Canvas) (r : Fin 32) (c : Fin 64) :
    (plot r c cv).collision = (cv.collision || cv.pixel r c) := rfl

/-- Sprite column `k` of the byte is set and lands on display column `c`. -/
def lands (c0 : Nat) (b : Byte) (c : Fin 64) (k : Nat) : Bool :=
  b.getLsbD (7 - k) && decide (c = Fin.ofNat 64 (c0 + k))

theorem fin_ofNat_64_inj {c0 i k : Nat} (hi : i < 8) (hk : k < 8)
    (h : Fin.ofNat 64 (c0 + i) = Fin.ofNat 64 (c0 + k)) : i = k := by
  have : (c0 + i) % 64 = (c0 + k) % 64 := congrArg Fin.val h
  omega

theorem fin_ofNat_32_inj {r0 j k : Nat} (hj : j < 32) (hk : k < 32)
    (h : Fin.ofNat 32 (r0 + j) = Fin.ofNat 32 (r0 + k)) : j = k := by
  have : (r0 + j) % 32 = (r0 + k) % 32 := congrArg Fin.val h
  omega

/-- Drawing columns: each pixel is flipped at most once, so it is XORed with what lands on it. -/
theorem Canvas.pixel_drawColumns (r : Fin 32) (c0 : Nat) (b : Byte) (is : List Nat) (cv : Canvas)
    (hlt : ∀ i ∈ is, i < 8) (hnd : is.Nodup) (r' : Fin 32) (c' : Fin 64) :
    (drawColumns r c0 b is cv).pixel r' c'
      = (cv.pixel r' c' ^^ (decide (r' = r) && is.any (lands c0 b c'))) := by
  induction is generalizing cv with
  | nil => simp [drawColumns]
  | cons i is ih =>
    obtain ⟨hni, hnd⟩ := List.nodup_cons.mp hnd
    have hi := hlt i List.mem_cons_self
    rw [drawColumns, ih _ (fun k hk => hlt k (List.mem_cons_of_mem _ hk)) hnd, List.any_cons]
    cases hb : b.getLsbD (7 - i) with
    | false => simp [lands, hb]
    | true =>
      rw [if_pos rfl, Canvas.pixel_plot]
      by_cases hc : c' = Fin.ofNat 64 (c0 + i)
      · have hrest : is.any (lands c0 b c') = false := by
          rw [List.any_eq_false]
          intro k hk
          simp only [lands, Bool.and_eq_true, decide_eq_true_eq, not_and]
          intro _ hck
          exact hni (fin_ofNat_64_inj hi (hlt k (List.mem_cons_of_mem _ hk)) (hc ▸ hck) ▸ hk)
        rw [hrest]
        simp [lands, hb, hc]
      · have hl : lands c0 b c' i = false := by rw [lands, decide_eq_false hc, Bool.and_false]
        rw [hl, decide_eq_false hc, Bool.and_false, Bool.xor_false, Bool.false_or]

/-- Drawing columns: a collision when some pixel a set bit lands on was on before. -/
theorem Canvas.collision_drawColumns (r : Fin 32) (c0 : Nat) (b : Byte) (is : List Nat)
    (cv : Canvas) (hlt : ∀ i ∈ is, i < 8) (hnd : is.Nodup) :
    (drawColumns r c0 b is cv).collision = (cv.collision
      || is.any fun i => b.getLsbD (7 - i) && cv.pixel r (Fin.ofNat 64 (c0 + i))) := by
  induction is generalizing cv with
  | nil => simp [drawColumns]
  | cons i is ih =>
    obtain ⟨hni, hnd⟩ := List.nodup_cons.mp hnd
    have hi := hlt i List.mem_cons_self
    have hlt' := fun k hk => hlt k (List.mem_cons_of_mem i hk)
    rw [drawColumns, ih _ hlt' hnd, List.any_cons]
    cases hb : b.getLsbD (7 - i) with
    | false => simp
    | true =>
      rw [if_pos rfl, Canvas.collision_plot, Bool.true_and, Bool.or_assoc]
      congr 2
      have : ∀ k ∈ is, (b.getLsbD (7 - k) && (plot r (Fin.ofNat 64 (c0 + i)) cv).pixel r
          (Fin.ofNat 64 (c0 + k))) = (b.getLsbD (7 - k) && cv.pixel r (Fin.ofNat 64 (c0 + k))) := by
        intro k hk
        have hne : Fin.ofNat 64 (c0 + k) ≠ Fin.ofNat 64 (c0 + i) := fun h =>
          hni (fin_ofNat_64_inj (hlt' k hk) hi h ▸ hk)
        rw [Canvas.pixel_plot, decide_eq_false hne, Bool.and_false, Bool.xor_false]
      rw [Bool.eq_iff_iff, List.any_eq_true, List.any_eq_true]
      exact exists_congr fun k => and_congr_right fun hk => by rw [this k hk]

/-- Some set bit of the byte lands on display column `c`. -/
def rowCovers (c0 : Nat) (b : Byte) (c : Fin 64) : Bool :=
  [0, 1, 2, 3, 4, 5, 6, 7].any (lands c0 b c)

theorem Canvas.pixel_drawRow (r : Fin 32) (c0 : Nat) (b : Byte) (cv : Canvas) (r' : Fin 32)
    (c' : Fin 64) : (drawRow r c0 b cv).pixel r' c'
      = (cv.pixel r' c' ^^ (decide (r' = r) && rowCovers c0 b c')) :=
  Canvas.pixel_drawColumns r c0 b _ cv (by decide) (by decide) r' c'

/-- One sprite row collides exactly when a pixel under one of its set bits was on. -/
theorem Canvas.collision_drawRow (r : Fin 32) (c0 : Nat) (b : Byte) (cv : Canvas) :
    (drawRow r c0 b cv).collision = true ↔
      cv.collision = true ∨ ∃ c, rowCovers c0 b c = true ∧ cv.pixel r c = true := by
  rw [drawRow, Canvas.collision_drawColumns r c0 b _ cv (by decide) (by decide), Bool.or_eq_true]
  refine or_congr_right ?_
  simp only [rowCovers, List.any_eq_true, lands, Bool.and_eq_true, decide_eq_true_eq]
  constructor
  · rintro ⟨i, hi, hb, hp⟩
    exact ⟨_, ⟨i, hi, hb, rfl⟩, hp⟩
  · rintro ⟨c, ⟨i, hi, hb, rfl⟩, hp⟩
    exact ⟨i, hi, hb, hp⟩

/-- The sprite whose rows are `bs`, its first row on display row `r`, covers the pixel. -/
def Covers (c0 : Nat) (bs : List Byte) (r : Nat) (r' : Fin 32) (c' : Fin 64) : Prop :=
  ∃ j, ∃ h : j < bs.length, r' = Fin.ofNat 32 (r + j) ∧ rowCovers c0 bs[j] c' = true

theorem Covers_cons {c0 : Nat} {b : Byte} {bs : List Byte} {r : Nat} {r' : Fin 32} {c' : Fin 64} :
    Covers c0 (b :: bs) r r' c' ↔
      (r' = Fin.ofNat 32 r ∧ rowCovers c0 b c' = true) ∨ Covers c0 bs (r + 1) r' c' := by
  constructor
  · rintro ⟨j, hj, hr, hc⟩
    cases j with
    | zero => exact Or.inl ⟨hr, hc⟩
    | succ j =>
      exact Or.inr ⟨j, by simpa using hj, by rw [hr, Nat.add_right_comm, Nat.add_assoc], hc⟩
  · rintro (⟨hr, hc⟩ | ⟨j, hj, hr, hc⟩)
    · exact ⟨0, by simp, hr, hc⟩
    · exact ⟨j + 1, by simpa using hj, by rw [hr, Nat.add_right_comm, Nat.add_assoc], hc⟩

/-- The rows of one sprite are distinct rows of the display. -/
theorem not_Covers_below {c0 : Nat} {bs : List Byte} {r : Nat} (hlen : bs.length < 32) (c' : Fin 64) :
    ¬Covers c0 bs (r + 1) (Fin.ofNat 32 r) c' := by
  rintro ⟨j, hj, hr, -⟩
  rw [Nat.add_assoc, Nat.add_comm 1 j] at hr
  have := fin_ofNat_32_inj (r0 := r) (j := 0) (k := j + 1) (by omega) (by omega) hr
  omega

/-- A whole sprite: a pixel is on afterwards iff exactly one of "it was on" and "the sprite covers it"
holds (R118d). -/
theorem Canvas.pixel_drawRows (c0 : Nat) (bs : List Byte) (r : Nat) (cv : Canvas)
    (hlen : bs.length ≤ 32) (r' : Fin 32) (c' : Fin 64) :
    (drawRows c0 bs r cv).pixel r' c' = true ↔ ¬(cv.pixel r' c' = true ↔ Covers c0 bs r r' c') := by
  induction bs generalizing r cv with
  | nil => simp [drawRows, Covers]
  | cons b bs ih =>
    simp only [List.length_cons] at hlen
    rw [drawRows, ih _ _ (by omega), Canvas.pixel_drawRow, Covers_cons]
    by_cases hr : r' = Fin.ofNat 32 r
    · subst hr
      have := not_Covers_below (c0 := c0) (r := r) (by omega) c' (bs := bs)
      simp only [this, or_false, true_and, decide_true, Bool.true_and]
      cases cv.pixel (Fin.ofNat 32 r) c' <;> cases rowCovers c0 b c' <;> simp
    · rw [decide_eq_false hr, Bool.false_and, Bool.xor_false]
      simp only [hr, false_and, false_or]

/-- A whole sprite collides exactly when it covers a pixel that was on. -/
theorem Canvas.collision_drawRows (c0 : Nat) (bs : List Byte) (r : Nat) (cv : Canvas)
    (hlen : bs.length ≤ 32) :
    (drawRows c0 bs r cv).collision = true ↔ cv.collision = true ∨
      ∃ r' c', Covers c0 bs r r' c' ∧ cv.pixel r' c' = true := by
  induction bs generalizing r cv with
  | nil => simp [drawRows, Covers]
  | cons b bs ih =>
    simp only [List.length_cons] at hlen
    rw [drawRows, ih _ _ (by omega), Canvas.collision_drawRow, or_assoc]
    refine or_congr_right ?_
    simp only [Covers_cons, or_and_right, exists_or]
    have hsame : ∀ r' c', Covers c0 bs (r + 1) r' c' →
        (drawRow (Fin.ofNat 32 r) c0 b cv).pixel r' c' = cv.pixel r' c' := by
      intro r' c' hcov
      have hne : r' ≠ Fin.ofNat 32 r := by
        rintro rfl
        exact not_Covers_below (by omega) c' hcov
      rw [Canvas.pixel_drawRow, decide_eq_false hne, Bool.false_and, Bool.xor_false]
    refine or_congr ?_ ?_
    · constructor
      · rintro ⟨c, hc, hp⟩
        exact ⟨_, c, ⟨rfl, hc⟩, hp⟩
      · rintro ⟨r', c, ⟨rfl, hc⟩, hp⟩
        exact ⟨c, hc, hp⟩
    · refine exists_congr fun r' => exists_congr fun c' => and_congr_right fun hcov => ?_
      rw [hsame r' c' hcov]

end Sys2Proof.Machine
end

