-- ==== Sys2Proof/Laws/Memory.lean ====
section
/-! SUPPORT. The laws of memory: reading after writing, that every memory operation keeps the canonical
form, and that two memories in canonical form that read the same are equal data. -/

namespace Sys2Proof.Machine

@[simp] theorem Memory.read_nil (a : Nat) : Memory.read [] a = resetByte a := rfl

theorem Memory.wf_cons {a : Nat} {b : Byte} {m : Memory} :
    Memory.wf ((a, b) :: m) = true ↔
      a < 4096 ∧ b ≠ resetByte a ∧ (∀ c ∈ m, a < c.1) ∧ m.wf = true := by
  simp [Memory.wf, Config.memSize, and_assoc]

/-- An address below every listed one reads as after Reset. -/
theorem Memory.read_below {m : Memory} {a : Nat} (h : ∀ c ∈ m, a < c.1) :
    Memory.read m a = resetByte a := by
  induction m with
  | nil => rfl
  | cons c m ih =>
    have hc := h c List.mem_cons_self
    rw [Memory.read, if_neg (by omega), ih fun d hd => h d (List.mem_cons_of_mem _ hd)]

/-- `put` makes its address read as the byte, provided the rest lies above it. -/
theorem Memory.read_put {m : Memory} {a : Nat} (b : Byte) (h : ∀ c ∈ m, a < c.1) (x : Nat) :
    Memory.read (Memory.put a b m) x = if x = a then b else Memory.read m x := by
  unfold Memory.put
  split
  · rename_i hb
    split
    · rename_i hx; rw [hx, Memory.read_below h, hb]
    · rfl
  · rfl

/-- Reading after writing, in a memory in canonical form. -/
theorem Memory.read_write {m : Memory} (hm : m.wf = true) (a : Nat) (b : Byte) (x : Nat) :
    Memory.read (Memory.write m a b) x = if x = a then b else Memory.read m x := by
  induction m with
  | nil => exact Memory.read_put b (by simp) x
  | cons c m ih =>
    obtain ⟨a', b'⟩ := c
    obtain ⟨-, -, habove, hwf⟩ := Memory.wf_cons.mp hm
    rw [Memory.write]
    split
    · refine Memory.read_put b (fun d hd => ?_) x
      rcases List.mem_cons.mp hd with rfl | hd
      · assumption
      · have := habove d hd; omega
    · split
      · rename_i h; subst h
        rw [Memory.read_put b habove, Memory.read]
        split <;> simp_all
      · rw [Memory.read, Memory.read, ih hwf]
        grind

/-- The address a write leaves in memory's list. -/
theorem Memory.mem_write {m : Memory} {a : Nat} {b : Byte} {c : Host.Cell}
    (h : c ∈ Memory.write m a b) : c = (a, b) ∨ c ∈ m := by
  induction m with
  | nil => simp only [Memory.write, Memory.put] at h; split at h <;> simp_all
  | cons d m ih =>
    obtain ⟨a', b'⟩ := d
    simp only [Memory.write, Memory.put] at h
    grind

theorem Memory.wf_put {m : Memory} {a : Nat} (b : Byte) (ha : a < 4096) (h : ∀ c ∈ m, a < c.1)
    (hm : m.wf = true) : (Memory.put a b m).wf = true := by
  unfold Memory.put
  split
  · exact hm
  · exact Memory.wf_cons.mpr ⟨ha, ‹_›, h, hm⟩

/-- A write inside memory keeps the canonical form. -/
theorem Memory.wf_write {m : Memory} (hm : m.wf = true) {a : Nat} (ha : a < 4096) (b : Byte) :
    (Memory.write m a b).wf = true := by
  induction m with
  | nil => exact Memory.wf_put b ha (by simp) rfl
  | cons c m ih =>
    obtain ⟨a', b'⟩ := c
    obtain ⟨ha', hb', habove, hwf⟩ := Memory.wf_cons.mp hm
    rw [Memory.write]
    split
    · refine Memory.wf_put b ha (fun d hd => ?_) hm
      rcases List.mem_cons.mp hd with rfl | hd
      · assumption
      · have := habove d hd; omega
    · split
      · rename_i h; subst h
        exact Memory.wf_put b ha habove hwf
      · refine Memory.wf_cons.mpr ⟨ha', hb', fun d hd => ?_, ih hwf⟩
        rcases Memory.mem_write hd with rfl | hd
        · simp only; omega
        · exact habove d hd

/-- Storing bytes inside memory keeps the canonical form. -/
theorem Memory.wf_writeAll {m : Memory} (hm : m.wf = true) {a : Nat} {bs : List Byte}
    (ha : a + bs.length ≤ 4096) : (Memory.writeAll m a bs).wf = true := by
  induction bs generalizing m a with
  | nil => exact hm
  | cons b bs ih =>
    simp only [List.length_cons] at ha
    exact ih (Memory.wf_write hm (by omega) b) (by omega)

/-- Reading after storing bytes: inside the stored range the byte stored, outside it what was there. -/
theorem Memory.read_writeAll {m : Memory} (hm : m.wf = true) {a : Nat} {bs : List Byte}
    (ha : a + bs.length ≤ 4096) (x : Nat) :
    Memory.read (Memory.writeAll m a bs) x
      = if a ≤ x ∧ x < a + bs.length then bs.getD (x - a) 0 else Memory.read m x := by
  induction bs generalizing m a with
  | nil => simp [Memory.writeAll]
  | cons b bs ih =>
    simp only [List.length_cons] at ha ⊢
    rw [Memory.writeAll, ih (Memory.wf_write hm (by omega) b) (by omega),
      Memory.read_write hm]
    by_cases hx : x = a
    · subst hx; simp
    · by_cases hr : a ≤ x ∧ x < a + (bs.length + 1)
      · rw [if_pos hr, if_pos (by omega)]
        obtain ⟨d, hd⟩ : ∃ d, x - a = d + 1 := ⟨x - a - 1, by omega⟩
        rw [hd, show x - (a + 1) = d by omega]
        simp
      · rw [if_neg hr, if_neg (by omega), if_neg hx]

/-- Equal memories are equal data: two memories in canonical form that read the same are the same list. -/
theorem Memory.eq_of_read_eq {m n : Memory} (hm : m.wf = true) (hn : n.wf = true)
    (h : ∀ a, Memory.read m a = Memory.read n a) : m = n := by
  induction m generalizing n with
  | nil =>
    cases n with
    | nil => rfl
    | cons d n =>
      obtain ⟨a, b⟩ := d
      have hd := (Memory.wf_cons.mp hn).2.1
      have := h a
      simp [Memory.read] at this
      exact absurd this.symm hd
  | cons c m ih =>
    obtain ⟨a, b⟩ := c
    obtain ⟨-, hb, hma, hmw⟩ := Memory.wf_cons.mp hm
    cases n with
    | nil =>
      have := h a
      simp [Memory.read] at this
      exact absurd this hb
    | cons d n =>
      obtain ⟨a', b'⟩ := d
      obtain ⟨-, hb', hna, hnw⟩ := Memory.wf_cons.mp hn
      have h1 := h a
      have h2 := h a'
      simp only [Memory.read] at h1 h2
      have haa : a = a' := by
        rcases Nat.lt_trichotomy a a' with hlt | heq | hgt
        · exfalso
          rw [if_pos trivial, if_neg (by omega),
            Memory.read_below fun e he => by have := hna e he; omega] at h1
          exact hb h1
        · exact heq
        · exfalso
          rw [if_pos trivial, if_neg (by omega),
            Memory.read_below fun e he => by have := hma e he; omega] at h2
          exact hb' h2.symm
      subst haa
      simp only [if_true] at h1
      subst h1
      congr 1
      refine ih hmw hnw fun x => ?_
      by_cases hx : x = a
      · rw [hx, Memory.read_below hma, Memory.read_below hna]
      · simpa [Memory.read, hx] using h x

end Sys2Proof.Machine
end

