-- ==== Sys2Proof/Laws/State.lean ====
section
/-! SUPPORT. What each update of the state leaves in each field: one lemma per field per update, true by
`rfl`, so that no proof unfolds a record update. -/

namespace Sys2Proof.Machine

variable (s : State)

/-! ### `State.setReg` -/

@[simp] theorem State.setReg_mem (x : Reg) (b : Byte) : (s.setReg x b).mem = s.mem := rfl
@[simp] theorem State.setReg_v (x : Reg) (b : Byte) : (s.setReg x b).v = s.v.set x.val b := rfl
@[simp] theorem State.setReg_i (x : Reg) (b : Byte) : (s.setReg x b).i = s.i := rfl
@[simp] theorem State.setReg_pc (x : Reg) (b : Byte) : (s.setReg x b).pc = s.pc := rfl
@[simp] theorem State.setReg_sp (x : Reg) (b : Byte) : (s.setReg x b).sp = s.sp := rfl
@[simp] theorem State.setReg_stack (x : Reg) (b : Byte) : (s.setReg x b).stack = s.stack := rfl
@[simp] theorem State.setReg_dt (x : Reg) (b : Byte) : (s.setReg x b).dt = s.dt := rfl
@[simp] theorem State.setReg_st (x : Reg) (b : Byte) : (s.setReg x b).st = s.st := rfl
@[simp] theorem State.setReg_fb (x : Reg) (b : Byte) : (s.setReg x b).fb = s.fb := rfl
@[simp] theorem State.setReg_mode (x : Reg) (b : Byte) : (s.setReg x b).mode = s.mode := rfl
@[simp] theorem State.setReg_script (x : Reg) (b : Byte) : (s.setReg x b).script = s.script := rfl
@[simp] theorem State.setReg_input (x : Reg) (b : Byte) : (s.setReg x b).input = s.input := rfl
@[simp] theorem State.setReg_hostCount (x : Reg) (b : Byte) :
    (s.setReg x b).hostCount = s.hostCount := rfl
@[simp] theorem State.setReg_report (x : Reg) (b : Byte) : (s.setReg x b).report = s.report := rfl
@[simp] theorem State.setReg_loadWindow (x : Reg) (b : Byte) :
    (s.setReg x b).loadWindow = s.loadWindow := rfl

/-! ### `State.setIndex` -/

@[simp] theorem State.setIndex_mem (a : Word) : (s.setIndex a).mem = s.mem := rfl
@[simp] theorem State.setIndex_v (a : Word) : (s.setIndex a).v = s.v := rfl
@[simp] theorem State.setIndex_i (a : Word) : (s.setIndex a).i = a &&& 0x0FFF := rfl
@[simp] theorem State.setIndex_pc (a : Word) : (s.setIndex a).pc = s.pc := rfl
@[simp] theorem State.setIndex_sp (a : Word) : (s.setIndex a).sp = s.sp := rfl
@[simp] theorem State.setIndex_stack (a : Word) : (s.setIndex a).stack = s.stack := rfl
@[simp] theorem State.setIndex_dt (a : Word) : (s.setIndex a).dt = s.dt := rfl
@[simp] theorem State.setIndex_st (a : Word) : (s.setIndex a).st = s.st := rfl
@[simp] theorem State.setIndex_fb (a : Word) : (s.setIndex a).fb = s.fb := rfl
@[simp] theorem State.setIndex_mode (a : Word) : (s.setIndex a).mode = s.mode := rfl
@[simp] theorem State.setIndex_script (a : Word) : (s.setIndex a).script = s.script := rfl
@[simp] theorem State.setIndex_input (a : Word) : (s.setIndex a).input = s.input := rfl
@[simp] theorem State.setIndex_hostCount (a : Word) : (s.setIndex a).hostCount = s.hostCount := rfl
@[simp] theorem State.setIndex_report (a : Word) : (s.setIndex a).report = s.report := rfl
@[simp] theorem State.setIndex_loadWindow (a : Word) :
    (s.setIndex a).loadWindow = s.loadWindow := rfl

/-! ### `State.advance` -/

@[simp] theorem State.advance_mem : (s.advance).mem = s.mem := rfl
@[simp] theorem State.advance_v : (s.advance).v = s.v := rfl
@[simp] theorem State.advance_i : (s.advance).i = s.i := rfl
@[simp] theorem State.advance_pc : (s.advance).pc = s.pc + 2 := rfl
@[simp] theorem State.advance_sp : (s.advance).sp = s.sp := rfl
@[simp] theorem State.advance_stack : (s.advance).stack = s.stack := rfl
@[simp] theorem State.advance_dt : (s.advance).dt = s.dt := rfl
@[simp] theorem State.advance_st : (s.advance).st = s.st := rfl
@[simp] theorem State.advance_fb : (s.advance).fb = s.fb := rfl
@[simp] theorem State.advance_mode : (s.advance).mode = s.mode := rfl
@[simp] theorem State.advance_script : (s.advance).script = s.script := rfl
@[simp] theorem State.advance_input : (s.advance).input = s.input := rfl
@[simp] theorem State.advance_hostCount : (s.advance).hostCount = s.hostCount := rfl
@[simp] theorem State.advance_report : (s.advance).report = s.report := rfl
@[simp] theorem State.advance_loadWindow : (s.advance).loadWindow = s.loadWindow := rfl

/-! ### `State.skipIf` -/

@[simp] theorem State.skipIf_mem (c : Bool) : (s.skipIf c).mem = s.mem := rfl
@[simp] theorem State.skipIf_v (c : Bool) : (s.skipIf c).v = s.v := rfl
@[simp] theorem State.skipIf_i (c : Bool) : (s.skipIf c).i = s.i := rfl
@[simp] theorem State.skipIf_pc (c : Bool) :
    (s.skipIf c).pc = if c then s.pc + 4 else s.pc + 2 := rfl
@[simp] theorem State.skipIf_sp (c : Bool) : (s.skipIf c).sp = s.sp := rfl
@[simp] theorem State.skipIf_stack (c : Bool) : (s.skipIf c).stack = s.stack := rfl
@[simp] theorem State.skipIf_dt (c : Bool) : (s.skipIf c).dt = s.dt := rfl
@[simp] theorem State.skipIf_st (c : Bool) : (s.skipIf c).st = s.st := rfl
@[simp] theorem State.skipIf_fb (c : Bool) : (s.skipIf c).fb = s.fb := rfl
@[simp] theorem State.skipIf_mode (c : Bool) : (s.skipIf c).mode = s.mode := rfl
@[simp] theorem State.skipIf_script (c : Bool) : (s.skipIf c).script = s.script := rfl
@[simp] theorem State.skipIf_input (c : Bool) : (s.skipIf c).input = s.input := rfl
@[simp] theorem State.skipIf_hostCount (c : Bool) : (s.skipIf c).hostCount = s.hostCount := rfl
@[simp] theorem State.skipIf_report (c : Bool) : (s.skipIf c).report = s.report := rfl
@[simp] theorem State.skipIf_loadWindow (c : Bool) : (s.skipIf c).loadWindow = s.loadWindow := rfl

/-! ### `State.jump` -/

@[simp] theorem State.jump_mem (a : Word) : (s.jump a).mem = s.mem := rfl
@[simp] theorem State.jump_v (a : Word) : (s.jump a).v = s.v := rfl
@[simp] theorem State.jump_i (a : Word) : (s.jump a).i = s.i := rfl
@[simp] theorem State.jump_pc (a : Word) : (s.jump a).pc = a := rfl
@[simp] theorem State.jump_sp (a : Word) : (s.jump a).sp = s.sp := rfl
@[simp] theorem State.jump_stack (a : Word) : (s.jump a).stack = s.stack := rfl
@[simp] theorem State.jump_dt (a : Word) : (s.jump a).dt = s.dt := rfl
@[simp] theorem State.jump_st (a : Word) : (s.jump a).st = s.st := rfl
@[simp] theorem State.jump_fb (a : Word) : (s.jump a).fb = s.fb := rfl
@[simp] theorem State.jump_mode (a : Word) : (s.jump a).mode = s.mode := rfl
@[simp] theorem State.jump_script (a : Word) : (s.jump a).script = s.script := rfl
@[simp] theorem State.jump_input (a : Word) : (s.jump a).input = s.input := rfl
@[simp] theorem State.jump_hostCount (a : Word) : (s.jump a).hostCount = s.hostCount := rfl
@[simp] theorem State.jump_report (a : Word) : (s.jump a).report = s.report := rfl
@[simp] theorem State.jump_loadWindow (a : Word) : (s.jump a).loadWindow = s.loadWindow := rfl

/-! ### `State.setFlag` -/

@[simp] theorem State.setFlag_mem (f : Bool) : (s.setFlag f).mem = s.mem := rfl
@[simp] theorem State.setFlag_i (f : Bool) : (s.setFlag f).i = s.i := rfl
@[simp] theorem State.setFlag_pc (f : Bool) : (s.setFlag f).pc = s.pc := rfl
@[simp] theorem State.setFlag_sp (f : Bool) : (s.setFlag f).sp = s.sp := rfl
@[simp] theorem State.setFlag_stack (f : Bool) : (s.setFlag f).stack = s.stack := rfl
@[simp] theorem State.setFlag_dt (f : Bool) : (s.setFlag f).dt = s.dt := rfl
@[simp] theorem State.setFlag_st (f : Bool) : (s.setFlag f).st = s.st := rfl
@[simp] theorem State.setFlag_fb (f : Bool) : (s.setFlag f).fb = s.fb := rfl
@[simp] theorem State.setFlag_mode (f : Bool) : (s.setFlag f).mode = s.mode := rfl
@[simp] theorem State.setFlag_script (f : Bool) : (s.setFlag f).script = s.script := rfl
@[simp] theorem State.setFlag_input (f : Bool) : (s.setFlag f).input = s.input := rfl
@[simp] theorem State.setFlag_hostCount (f : Bool) : (s.setFlag f).hostCount = s.hostCount := rfl
@[simp] theorem State.setFlag_report (f : Bool) : (s.setFlag f).report = s.report := rfl
@[simp] theorem State.setFlag_loadWindow (f : Bool) : (s.setFlag f).loadWindow = s.loadWindow := rfl

/-! ### `State.setResultAndFlag` -/

@[simp] theorem State.setResultAndFlag_mem (x : Reg) (b : Byte) (f : Bool) :
    (s.setResultAndFlag x b f).mem = s.mem := rfl
@[simp] theorem State.setResultAndFlag_i (x : Reg) (b : Byte) (f : Bool) :
    (s.setResultAndFlag x b f).i = s.i := rfl
@[simp] theorem State.setResultAndFlag_pc (x : Reg) (b : Byte) (f : Bool) :
    (s.setResultAndFlag x b f).pc = s.pc := rfl
@[simp] theorem State.setResultAndFlag_sp (x : Reg) (b : Byte) (f : Bool) :
    (s.setResultAndFlag x b f).sp = s.sp := rfl
@[simp] theorem State.setResultAndFlag_stack (x : Reg) (b : Byte) (f : Bool) :
    (s.setResultAndFlag x b f).stack = s.stack := rfl
@[simp] theorem State.setResultAndFlag_dt (x : Reg) (b : Byte) (f : Bool) :
    (s.setResultAndFlag x b f).dt = s.dt := rfl
@[simp] theorem State.setResultAndFlag_st (x : Reg) (b : Byte) (f : Bool) :
    (s.setResultAndFlag x b f).st = s.st := rfl
@[simp] theorem State.setResultAndFlag_fb (x : Reg) (b : Byte) (f : Bool) :
    (s.setResultAndFlag x b f).fb = s.fb := rfl
@[simp] theorem State.setResultAndFlag_mode (x : Reg) (b : Byte) (f : Bool) :
    (s.setResultAndFlag x b f).mode = s.mode := rfl
@[simp] theorem State.setResultAndFlag_script (x : Reg) (b : Byte) (f : Bool) :
    (s.setResultAndFlag x b f).script = s.script := rfl
@[simp] theorem State.setResultAndFlag_input (x : Reg) (b : Byte) (f : Bool) :
    (s.setResultAndFlag x b f).input = s.input := rfl
@[simp] theorem State.setResultAndFlag_hostCount (x : Reg) (b : Byte) (f : Bool) :
    (s.setResultAndFlag x b f).hostCount = s.hostCount := rfl
@[simp] theorem State.setResultAndFlag_report (x : Reg) (b : Byte) (f : Bool) :
    (s.setResultAndFlag x b f).report = s.report := rfl
@[simp] theorem State.setResultAndFlag_loadWindow (x : Reg) (b : Byte) (f : Bool) :
    (s.setResultAndFlag x b f).loadWindow = s.loadWindow := rfl

/-! ### `State.present` -/

@[simp] theorem State.present_mem (inp : StepInput) : (s.present inp).mem = s.mem := rfl
@[simp] theorem State.present_v (inp : StepInput) : (s.present inp).v = s.v := rfl
@[simp] theorem State.present_i (inp : StepInput) : (s.present inp).i = s.i := rfl
@[simp] theorem State.present_pc (inp : StepInput) : (s.present inp).pc = s.pc := rfl
@[simp] theorem State.present_sp (inp : StepInput) : (s.present inp).sp = s.sp := rfl
@[simp] theorem State.present_stack (inp : StepInput) : (s.present inp).stack = s.stack := rfl
@[simp] theorem State.present_dt (inp : StepInput) : (s.present inp).dt = s.dt := rfl
@[simp] theorem State.present_st (inp : StepInput) : (s.present inp).st = s.st := rfl
@[simp] theorem State.present_fb (inp : StepInput) : (s.present inp).fb = s.fb := rfl
@[simp] theorem State.present_mode (inp : StepInput) : (s.present inp).mode = s.mode := rfl
@[simp] theorem State.present_script (inp : StepInput) : (s.present inp).script = s.script := rfl
@[simp] theorem State.present_input (inp : StepInput) : (s.present inp).input = inp := rfl
@[simp] theorem State.present_hostCount (inp : StepInput) :
    (s.present inp).hostCount = s.hostCount := rfl
@[simp] theorem State.present_report (inp : StepInput) : (s.present inp).report = s.report := rfl
@[simp] theorem State.present_loadWindow (inp : StepInput) :
    (s.present inp).loadWindow = false := rfl

/-! ### Registers -/

@[simp] theorem State.reg_setReg (x y : Reg) (b : Byte) :
    (s.setReg x b).reg y = if x = y then b else s.reg y := by
  simp [State.reg, State.setReg, Vector.getElem_set, Fin.val_inj]

@[simp] theorem State.reg_setIndex (a : Word) (y : Reg) : (s.setIndex a).reg y = s.reg y := rfl
@[simp] theorem State.reg_advance (y : Reg) : s.advance.reg y = s.reg y := rfl
@[simp] theorem State.reg_skipIf (c : Bool) (y : Reg) : (s.skipIf c).reg y = s.reg y := rfl
@[simp] theorem State.reg_jump (a : Word) (y : Reg) : (s.jump a).reg y = s.reg y := rfl
@[simp] theorem State.reg_present (inp : StepInput) (y : Reg) : (s.present inp).reg y = s.reg y := rfl

@[simp] theorem State.reg_setFlag (f : Bool) (y : Reg) :
    (s.setFlag f).reg y = if y = 15 then flagByte f else s.reg y := by
  simp [State.setFlag, Config.flagReg, eq_comm]

/-- After a result and a flag, VF holds the flag whichever register the result went to (R90). -/
theorem State.reg_setResultAndFlag (x y : Reg) (b : Byte) (f : Bool) :
    (s.setResultAndFlag x b f).reg y
      = if y = 15 then flagByte f else if x = y then b else s.reg y := by
  simp [State.setResultAndFlag]

/-- Registers are the register file: two files that read the same are equal. -/
theorem State.v_ext {s t : State} (h : ∀ x, t.reg x = s.reg x) : t.v = s.v :=
  Vector.ext fun k hk => h ⟨k, hk⟩

end Sys2Proof.Machine
end

