-- ==== Sys2Proof/Laws/Ops.lean ====
section
/-! SUPPORT. One spec lemma for each shared operation of Machine/Operands.lean and Machine/Ops.lean: what
it answers and when, for later proofs to cite instead of unfolding it. -/

namespace Sys2Proof.Machine

/-! ### The bounds check and memory access (20_memory.md R34) -/

/-- The range check: no byte at all, or the last byte inside memory. -/
theorem rangeInMemory_iff (a n : Nat) : rangeInMemory a n = true ↔ n = 0 ∨ a + n ≤ 4096 := by
  simp only [rangeInMemory, Bool.or_eq_true, beq_iff_eq, decide_eq_true_eq]
  omega

/-- Reading one byte answers memory's byte inside memory, and nothing above 4095. -/
theorem State.readByte_eq (s : State) (a : Nat) :
    s.readByte a = if a ≤ 4095 then some (s.mem.read a) else none := by
  refine ite_congr (propext ?_) (fun _ => rfl) fun _ => rfl
  rw [rangeInMemory_iff]
  omega

theorem State.writeByte_eq (s : State) (a : Nat) (b : Byte) :
    s.writeByte a b = if a ≤ 4095 then some { s with mem := s.mem.write a b } else none := by
  refine ite_congr (propext ?_) (fun _ => rfl) fun _ => rfl
  rw [rangeInMemory_iff]
  omega

/-- Reading bytes: the bytes there when the range is in memory. -/
theorem State.readBytes_eq (s : State) (a n : Nat) :
    s.readBytes a n = if n = 0 ∨ a + n ≤ 4096
      then some ((List.range n).map fun k => s.mem.read (a + k)) else none :=
  ite_congr (propext (rangeInMemory_iff a n)) (fun _ => rfl) fun _ => rfl

/-- Storing bytes: memory changes, and nothing else, when the range is in memory. -/
theorem State.storeBytes_eq (s : State) (a : Nat) (bs : List Byte) :
    s.storeBytes a bs = if bs.length = 0 ∨ a + bs.length ≤ 4096
      then some { s with mem := s.mem.writeAll a bs } else none :=
  ite_congr (propext (rangeInMemory_iff a bs.length)) (fun _ => rfl) fun _ => rfl

/-- Reading bytes answers exactly when the range is in memory, and then the bytes there. -/
theorem State.readBytes_eq_some {s : State} {a n : Nat} {bs : List Byte} :
    s.readBytes a n = some bs ↔
      (n = 0 ∨ a + n ≤ 4096) ∧ bs = (List.range n).map fun k => s.mem.read (a + k) := by
  rw [State.readBytes_eq, Option.ite_none_right_eq_some, Option.some_inj, eq_comm (a := bs)]

theorem State.readBytes_eq_none {s : State} {a n : Nat} :
    s.readBytes a n = none ↔ n ≠ 0 ∧ 4096 < a + n := by
  rw [State.readBytes_eq, ite_eq_right_iff]
  simp only [reduceCtorEq, imp_false]
  omega

/-- Storing bytes answers exactly when the range is in memory, and then changes memory only. -/
theorem State.storeBytes_eq_some {s t : State} {a : Nat} {bs : List Byte} :
    s.storeBytes a bs = some t ↔
      (bs.length = 0 ∨ a + bs.length ≤ 4096) ∧ t = { s with mem := s.mem.writeAll a bs } := by
  rw [State.storeBytes_eq, Option.ite_none_right_eq_some, Option.some_inj, eq_comm (a := t)]

theorem State.storeBytes_eq_none {s : State} {a : Nat} {bs : List Byte} :
    s.storeBytes a bs = none ↔ bs.length ≠ 0 ∧ 4096 < a + bs.length := by
  rw [State.storeBytes_eq, ite_eq_right_iff]
  simp only [reduceCtorEq, imp_false]
  omega

/-- Storing bytes keeps memory's canonical form. -/
theorem State.storeBytes_wf {s t : State} {a : Nat} {bs : List Byte} (hs : s.mem.wf = true)
    (h : s.storeBytes a bs = some t) : t.mem.wf = true := by
  obtain ⟨hr, rfl⟩ := State.storeBytes_eq_some.mp h
  rcases hr with h0 | hr
  · rw [List.length_eq_zero_iff.mp h0]; exact hs
  · exact Memory.wf_writeAll hs hr

/-- Reading a byte after storing bytes. -/
theorem State.readByte_storeBytes {s t : State} {a : Nat} {bs : List Byte} (hs : s.mem.wf = true)
    (h : s.storeBytes a bs = some t) (x : Nat) :
    t.readByte x = if a ≤ x ∧ x < a + bs.length then some (bs.getD (x - a) 0) else s.readByte x := by
  obtain ⟨hr, rfl⟩ := State.storeBytes_eq_some.mp h
  rw [State.readByte_eq, State.readByte_eq]
  rcases hr with h0 | hr
  · obtain rfl := List.length_eq_zero_iff.mp h0
    have hno : ¬(a ≤ x ∧ x < a + 0) := by omega
    exact (if_neg hno).symm
  · simp only [Memory.read_writeAll hs hr]
    by_cases hx : a ≤ x ∧ x < a + bs.length
    · rw [if_pos hx, if_pos hx, if_pos (by omega)]
    · rw [if_neg hx, if_neg hx]

/-- The fetch: the word at `pc`, high byte first, exactly when both its bytes exist (R73). -/
theorem State.fetch_eq (s : State) :
    s.fetch = if s.pc.toNat ≤ 4094
      then some (wordOfBytes (s.mem.read s.pc.toNat) (s.mem.read (s.pc.toNat + 1))) else none := by
  unfold State.fetch
  by_cases h : s.pc.toNat ≤ 4094
  · rw [(State.readBytes_eq_some (n := 2)).mpr ⟨Or.inr (by omega), rfl⟩, if_pos h]
    rfl
  · rw [(State.readBytes_eq_none (n := 2)).mpr ⟨by omega, by omega⟩, if_neg h]

/-! ### Outcomes -/

@[simp] theorem orRaise_some {α : Type} (kind : FaultKind) (s : State) (a : α) (k : α → Result) :
    orRaise kind s (some a) k = k a := rfl

@[simp] theorem orRaise_none {α : Type} (kind : FaultKind) (s : State) (k : α → Result) :
    orRaise kind s none k = raise kind s := rfl

/-- An operation that may raise answers the fault exactly when it failed. -/
theorem orRaise_eq {α : Type} {kind : FaultKind} {s : State} {o : Option α} {k : α → Result}
    {r : Result} (h : orRaise kind s o k = r) :
    (o = none ∧ r = raise kind s) ∨ ∃ a, o = some a ∧ r = k a := by
  cases o with
  | none => exact Or.inl ⟨rfl, h.symm⟩
  | some a => exact Or.inr ⟨a, rfl, h.symm⟩

theorem returnOk_eq (s : State) : returnOk s = .next { s with report := .step .ok } := rfl

theorem retire_eq (s : State) :
    retire s = .next { s with pc := s.pc + 2, report := .step .ok } := rfl

/-! ### Operands -/

/-- Writing `I` leaves its 12 significant bits (10_state.md R12). -/
theorem setIndex_toNat (s : State) (a : Word) : (s.setIndex a).i.toNat = a.toNat % 4096 := by
  simp only [State.setIndex, BitVec.toNat_and]
  exact Nat.and_two_pow_sub_one_eq_mod _ 12

theorem zext16_toNat (nnn : Addr12) : (zext16 nnn).toNat = nnn.toNat := by
  simp only [zext16, BitVec.toNat_setWidth]
  omega

theorem lowNibble_val (b : Byte) : (lowNibble b).val = b.toNat % 16 := by
  change (BitVec.extractLsb' 0 4 b).toNat = _
  simp

theorem bcdDigits_length (b : Byte) : (bcdDigits b).length = 3 := rfl

theorem State.regsUpTo_length (s : State) (x : Reg) : (s.regsUpTo x).length = x.val + 1 := by
  simp [State.regsUpTo]

theorem State.regsUpTo_getD (s : State) (x : Reg) (k : Nat) (hk : k ≤ x.val) :
    (s.regsUpTo x).getD k 0 = s.reg (Fin.ofNat 16 k) := by
  simp [State.regsUpTo, show k < x.val + 1 by omega]

/-- The block load's writes change the register file only. -/
theorem State.setRegsFrom_eq (bs : List Byte) (k : Nat) (s : State) :
    State.setRegsFrom bs k s = { s with v := (State.setRegsFrom bs k s).v } := by
  induction bs generalizing k s with
  | nil => rfl
  | cons b bs ih => rw [State.setRegsFrom, ih]; rfl

/-- The block load's writes depend on the register file only. -/
theorem State.setRegsFrom_v_congr {s t : State} (bs : List Byte) (k : Nat) (h : t.v = s.v) :
    (State.setRegsFrom bs k t).v = (State.setRegsFrom bs k s).v := by
  induction bs generalizing k s t with
  | nil => exact h
  | cons b bs ih => exact ih _ (by rw [State.setReg_v, State.setReg_v, h])

/-- The block load's writes: register `x` gets byte `x - k` when there is one. -/
theorem State.reg_setRegsFrom (bs : List Byte) (k : Nat) (s : State) (hk : k + bs.length ≤ 16)
    (x : Reg) :
    (State.setRegsFrom bs k s).reg x
      = if k ≤ x.val ∧ x.val < k + bs.length then bs.getD (x.val - k) 0 else s.reg x := by
  induction bs generalizing k s with
  | nil => simp [State.setRegsFrom]
  | cons b bs ih =>
    simp only [List.length_cons] at hk ⊢
    have hval : (Fin.ofNat 16 k).val = k := Nat.mod_eq_of_lt (by omega)
    rw [State.setRegsFrom, ih _ _ (by omega), State.reg_setReg]
    by_cases hx : x.val = k
    · have he : Fin.ofNat 16 k = x := Fin.ext (by rw [hval, hx])
      rw [if_neg (by omega), if_pos he, if_pos (by omega), hx]
      simp
    · have he : Fin.ofNat 16 k ≠ x := fun h => hx (by rw [← h, hval])
      rw [if_neg he]
      by_cases hr : k ≤ x.val ∧ x.val < k + (bs.length + 1)
      · rw [if_pos hr, if_pos (by omega)]
        obtain ⟨d, hd⟩ : ∃ d, x.val - k = d + 1 := ⟨x.val - k - 1, by omega⟩
        rw [hd, show x.val - (k + 1) = d by omega]
        simp
      · rw [if_neg hr, if_neg (by omega)]

/-! ### Instructions -/

/-- Every instruction answers a next state: the spec's faults are taken, none stops the model. -/
theorem exec_next (i : Instr) (s : State) : ∃ t, exec i s = .next t := by
  have hOr : ∀ {α : Type} (kind : FaultKind) (o : Option α) (k : α → Result),
      (∀ a, ∃ t, k a = .next t) → ∃ t, orRaise kind s o k = .next t := by
    intro α kind o k hk
    cases o with
    | none => exact ⟨_, rfl⟩
    | some a => exact hk a
  cases i with
  | ret => simp only [exec, execRet]; split <;> exact ⟨_, rfl⟩
  | callAddr nnn => simp only [exec, execCallAddr]; split <;> exact ⟨_, rfl⟩
  | drwVxVyN x y n => exact hOr _ _ _ fun _ => ⟨_, rfl⟩
  | ldBVx x => exact hOr _ _ _ fun _ => ⟨_, rfl⟩
  | ldMemVx x => exact hOr _ _ _ fun _ => ⟨_, rfl⟩
  | ldVxMem x => exact hOr _ _ _ fun _ => ⟨_, rfl⟩
  | _ => exact ⟨_, rfl⟩

end Sys2Proof.Machine
end

