-- ==== Sys2Proof/Laws/Instr.lean ====
section
/-! SUPPORT. The meaning of each instruction that can fault as one equation over its condition, and the frames
that instructions share, for proofs to cite instead of unfolding a meaning. -/

namespace Sys2Proof.Machine

/-! ### The faulting instructions -/

theorem exec_ret_eq (s : State) : exec .ret s =
    if s.sp = 0 then raise .stackFault s
    else .next { s with pc := s.stack[s.sp.val], sp := s.sp - 1, report := .step .ok } := rfl

theorem exec_callAddr_eq (nnn : Addr12) (s : State) : exec (.callAddr nnn) s =
    if s.sp = 15 then raise .stackFault s
    else .next { s with
      sp := s.sp + 1, stack := s.stack.set (s.sp + 1).val (s.pc + 2), pc := zext16 nnn,
      report := .step .ok } := rfl

/-- LD B,Vx as one conditional (R108). -/
theorem exec_ldBVx_eq (x : Reg) (s : State) : exec (.ldBVx x) s =
    if s.i.toNat ≤ 4093 then .next { s with
      mem := s.mem.writeAll s.base (bcdDigits (s.reg x)), pc := s.pc + 2, report := .step .ok }
    else raise .memoryFault s := by
  rw [exec, execLdBVx, State.storeBytes_eq, bcdDigits_length]
  by_cases h : s.i.toNat ≤ 4093
  · rw [if_pos h, if_pos (Or.inr (by simp only [State.base]; omega))]; rfl
  · rw [if_neg h, if_neg (by simp only [State.base]; omega)]; rfl

/-- LD [I],Vx as one conditional (R109). -/
theorem exec_ldMemVx_eq (x : Reg) (s : State) : exec (.ldMemVx x) s =
    if s.i.toNat + x.val ≤ 4095 then .next { s with
      mem := s.mem.writeAll s.base (s.regsUpTo x), pc := s.pc + 2, report := .step .ok }
    else raise .memoryFault s := by
  rw [exec, execLdMemVx, State.storeBytes_eq, State.regsUpTo_length]
  by_cases h : s.i.toNat + x.val ≤ 4095
  · rw [if_pos h, if_pos (Or.inr (by simp only [State.base]; omega))]; rfl
  · rw [if_neg h, if_neg (by simp only [State.base]; omega)]; rfl

/-- The bytes of memory from `a` on. -/
def bytesFrom (s : State) (a n : Nat) : List Byte := (List.range n).map fun k => s.mem.read (a + k)

@[simp] theorem bytesFrom_length (s : State) (a n : Nat) : (bytesFrom s a n).length = n := by
  simp [bytesFrom]

theorem bytesFrom_getD (s : State) (a n k : Nat) (hk : k < n) :
    (bytesFrom s a n).getD k 0 = s.mem.read (a + k) := by
  simp [bytesFrom, hk]

/-- LD Vx,[I] as one conditional (R110). -/
theorem exec_ldVxMem_eq (x : Reg) (s : State) : exec (.ldVxMem x) s =
    if s.i.toNat + x.val ≤ 4095 then .next { s with
      v := (State.setRegsFrom (bytesFrom s s.base (x.val + 1)) 0 s).v, pc := s.pc + 2,
      report := .step .ok }
    else raise .memoryFault s := by
  rw [exec, execLdVxMem, State.readBytes_eq]
  by_cases h : s.i.toNat + x.val ≤ 4095
  · rw [if_pos h, if_pos (Or.inr (by simp only [State.base]; omega)), orRaise_some,
      State.setRegsFrom_eq]
    rfl
  · rw [if_neg h, if_neg (by simp only [State.base]; omega)]; rfl

/-- The registers after LD Vx,[I]. -/
theorem reg_ldVxMem (x y : Reg) (s : State) :
    (State.setRegsFrom (bytesFrom s s.base (x.val + 1)) 0 s).reg y
      = if y ≤ x then s.mem.read (s.base + y.val) else s.reg y := by
  rw [State.reg_setRegsFrom _ _ _ (by rw [bytesFrom_length]; omega), bytesFrom_length]
  by_cases h : y ≤ x
  · have hv : y.val ≤ x.val := h
    rw [if_pos h, if_pos ⟨Nat.zero_le _, by omega⟩, Nat.sub_zero, bytesFrom_getD _ _ _ _ (by omega)]
  · have hv : ¬y.val ≤ x.val := h
    rw [if_neg h, if_neg (by omega)]

/-- DRW as one conditional (R117). -/
theorem exec_drwVxVyN_eq (x y : Reg) (n : Fin 16) (s : State) : exec (.drwVxVyN x y n) s =
    if n = 0 ∨ s.i.toNat + n.val - 1 ≤ 4095 then
      let cv := drawRows ((s.reg x).toNat % 64) (bytesFrom s s.base n.val) ((s.reg y).toNat % 32)
        ⟨s.fb, false⟩
      .next { s with
        fb := cv.fb, v := s.v.set 15 (flagByte cv.collision), pc := s.pc + 2, report := .step .ok }
    else raise .memoryFault s := by
  have hn : n = 0 ↔ n.val = 0 := Fin.ext_iff
  rw [exec, execDrwVxVyN, State.readBytes_eq]
  by_cases h : n = 0 ∨ s.i.toNat + n.val - 1 ≤ 4095
  · rw [if_pos h, if_pos (by simp only [State.base]; omega)]; rfl
  · rw [if_neg h, if_neg (by simp only [State.base]; omega)]; rfl

/-! ### Frames -/

/-- An instruction that writes one register and `pc`. -/
theorem frame_setReg (s : State) (x : Reg) (b : Byte) (q : Word) (r : Report) :
    OnlyChanges (fun p => p = .reg x ∨ p = .pc) s { s.setReg x b with pc := q, report := r } := by
  intro p hp
  cases p with
  | reg y =>
    exact (State.reg_setReg s x y b).trans (if_neg fun h => hp (Or.inl (by rw [h])))
  | pc => exact absurd (Or.inr rfl) hp
  | hostSide => exact ⟨rfl, rfl, rfl, rfl⟩
  | _ => rfl

/-- An instruction that writes a result, the flag and `pc`. -/
theorem frame_setResultAndFlag (s : State) (x : Reg) (b : Byte) (f : Bool) (q : Word) (r : Report) :
    OnlyChanges (fun p => p = .reg x ∨ p = .reg 15 ∨ p = .pc) s
      { s.setResultAndFlag x b f with pc := q, report := r } := by
  intro p hp
  cases p with
  | reg y =>
    refine (State.reg_setResultAndFlag s x y b f).trans ?_
    rw [if_neg fun h => hp (Or.inr (Or.inl (by rw [h]))), if_neg fun h => hp (Or.inl (by rw [h]))]
  | pc => exact absurd (Or.inr (Or.inr rfl)) hp
  | hostSide => exact ⟨rfl, rfl, rfl, rfl⟩
  | _ => rfl

/-- An instruction that writes `pc` only. -/
theorem frame_pc (s : State) (q : Word) (r : Report) :
    OnlyChanges (fun p => p = .pc) s { s with pc := q, report := r } := by
  intro p hp
  cases p with
  | pc => exact absurd rfl hp
  | hostSide => exact ⟨rfl, rfl, rfl, rfl⟩
  | _ => rfl

/-- An instruction that writes `I` and `pc`. -/
theorem frame_setIndex (s : State) (a q : Word) (r : Report) :
    OnlyChanges (fun p => p = .index ∨ p = .pc) s { s.setIndex a with pc := q, report := r } := by
  intro p hp
  cases p with
  | index => exact absurd (Or.inl rfl) hp
  | pc => exact absurd (Or.inr rfl) hp
  | hostSide => exact ⟨rfl, rfl, rfl, rfl⟩
  | _ => rfl

/-- An instruction that stores bytes and writes `pc`: no byte outside the stored range changes. -/
theorem frame_store {s : State} (hs : s.mem.wf = true) (a : Nat) (bs : List Byte)
    (ha : a + bs.length ≤ 4096) (q : Word) (r : Report) :
    OnlyChanges (fun p => p = .pc ∨ ∃ k < bs.length, p = .cell (a + k)) s
      { s with mem := s.mem.writeAll a bs, pc := q, report := r } := by
  intro p hp
  cases p with
  | pc => exact absurd (Or.inl rfl) hp
  | cell c =>
    have hc : ¬(a ≤ c ∧ c < a + bs.length) := fun h =>
      hp (Or.inr ⟨c - a, by omega, by rw [show a + (c - a) = c by omega]⟩)
    simp only [SameIn, State.readByte_eq, Memory.read_writeAll hs ha, if_neg hc]
  | hostSide => exact ⟨rfl, rfl, rfl, rfl⟩
  | _ => rfl

end Sys2Proof.Machine
end

