-- ==== Sys2Proof/Laws/PerInstr.lean ====
section
/-! SUPPORT. Laws made per instruction (LAWS.json "per_instruction"), about the instruction as syntax. Family
`RowSelected`: the word of an instruction selects the opcode-table row of its mnemonic (30_encoding.md R55)
and its operands are in range (R53). -/

namespace Sys2Proof.Laws

/-! ### The format words under the masks of R55 -/

theorem formatA_and_F000 (c : BitVec 4) (nnn : Addr12) :
    formatA c nnn &&& 0xF000 = c ++ 0#12 := by
  change (c ++ nnn) &&& (0xF#4 ++ 0#12) = _
  rw [BitVec.and_append, BitVec.and_zero]
  exact congrArg (· ++ 0#12) (BitVec.and_allOnes (x := c))

theorem formatXK_and_F000 (c : BitVec 4) (x : Reg) (kk : Byte) :
    formatXK c x kk &&& 0xF000 = c ++ 0#12 :=
  formatA_and_F000 c _

theorem formatXYN_and_F000 (c : BitVec 4) (x y : Reg) (n : BitVec 4) :
    formatXYN c x y n &&& 0xF000 = c ++ 0#12 :=
  formatA_and_F000 c _

theorem formatXK_and_F0FF (c : BitVec 4) (x : Reg) (kk : Byte) :
    formatXK c x kk &&& 0xF0FF = c ++ (0#4 ++ kk) := by
  change (c ++ (BitVec.ofFin (w := 4) x ++ kk)) &&& (0xF#4 ++ (0#4 ++ 0xFF#8)) = _
  rw [BitVec.and_append, BitVec.and_append, BitVec.and_zero]
  exact congrArg₂ (fun a b => a ++ (0#4 ++ b)) (BitVec.and_allOnes (x := c))
    (BitVec.and_allOnes (x := kk))

theorem formatXYN_and_F00F (c : BitVec 4) (x y : Reg) (n : BitVec 4) :
    formatXYN c x y n &&& 0xF00F = c ++ (0#4 ++ (0#4 ++ n)) := by
  change (c ++ (BitVec.ofFin (w := 4) x ++ (BitVec.ofFin (w := 4) y ++ n)) : Word)
    &&& (0xF#4 ++ (0#4 ++ (0#4 ++ 0xF#4))) = _
  rw [BitVec.and_append, BitVec.and_append, BitVec.and_append, BitVec.and_zero,
    BitVec.and_zero]
  exact congrArg₂ (fun a b => a ++ (0#4 ++ (0#4 ++ b))) (BitVec.and_allOnes (x := c))
    (BitVec.and_allOnes (x := n))

/-! ### The family -/

/-- The mnemonic of an instruction's row in spec/opcode_table.json. -/
def RowSelected.mnemonic : Instr → String
  | .cls => "CLS"
  | .ret => "RET"
  | .jpAddr _ => "JP_addr"
  | .callAddr _ => "CALL_addr"
  | .seVxKk _ _ => "SE_Vx_kk"
  | .sneVxKk _ _ => "SNE_Vx_kk"
  | .seVxVy _ _ => "SE_Vx_Vy"
  | .ldVxKk _ _ => "LD_Vx_kk"
  | .addVxKk _ _ => "ADD_Vx_kk"
  | .ldVxVy _ _ => "LD_Vx_Vy"
  | .orVxVy _ _ => "OR_Vx_Vy"
  | .andVxVy _ _ => "AND_Vx_Vy"
  | .xorVxVy _ _ => "XOR_Vx_Vy"
  | .addVxVy _ _ => "ADD_Vx_Vy"
  | .subVxVy _ _ => "SUB_Vx_Vy"
  | .subnVxVy _ _ => "SUBN_Vx_Vy"
  | .shrVx _ _ => "SHR_Vx"
  | .shlVx _ _ => "SHL_Vx"
  | .sneVxVy _ _ => "SNE_Vx_Vy"
  | .ldIAddr _ => "LD_I_addr"
  | .jpV0Addr _ => "JP_V0_addr"
  | .rndVxKk _ _ => "RND_Vx_kk"
  | .drwVxVyN _ _ _ => "DRW_Vx_Vy_n"
  | .skpVx _ => "SKP_Vx"
  | .sknpVx _ => "SKNP_Vx"
  | .ldVxDt _ => "LD_Vx_DT"
  | .ldVxK _ => "LD_Vx_K"
  | .ldDtVx _ => "LD_DT_Vx"
  | .ldStVx _ => "LD_ST_Vx"
  | .addIVx _ => "ADD_I_Vx"
  | .ldFVx _ => "LD_F_Vx"
  | .ldBVx _ => "LD_B_Vx"
  | .ldMemVx _ => "LD__I__Vx"
  | .ldVxMem _ => "LD_Vx__I"

/-- The word of `i` selects the row of its mnemonic, and its operands are in range. -/
def RowSelected.Statement (i : Instr) : Prop :=
  (∃ row ∈ opcodeTable, row.mnemonic = RowSelected.mnemonic i ∧ row.selects (encode i) = true)
    ∧ i.wf = true

/-- One row is enough: its mnemonic, and the word under its mask. -/
theorem RowSelected.of_row {i : Instr} (row : OpcodeRow) (hrow : row ∈ opcodeTable)
    (hm : row.mnemonic = RowSelected.mnemonic i) (hv : encode i &&& row.mask = row.value)
    (hwf : i.wf = true) : RowSelected.Statement i :=
  ⟨⟨row, hrow, hm, by rw [OpcodeRow.selects, hv, beq_self_eq_true]⟩, hwf⟩

theorem RowSelected.cls : RowSelected.Statement (.cls) :=
  RowSelected.of_row ⟨"CLS", 0xFFFF, 0x00E0⟩ (by decide) rfl rfl
    rfl

theorem RowSelected.ret : RowSelected.Statement (.ret) :=
  RowSelected.of_row ⟨"RET", 0xFFFF, 0x00EE⟩ (by decide) rfl rfl
    rfl

theorem RowSelected.jpAddr (nnn : Addr12) : RowSelected.Statement (.jpAddr nnn) :=
  RowSelected.of_row ⟨"JP_addr", 0xF000, 0x1000⟩ (by decide) rfl (formatA_and_F000 _ _)
    (by simp only [Instr.wf, decide_eq_true_eq]; omega)

theorem RowSelected.callAddr (nnn : Addr12) : RowSelected.Statement (.callAddr nnn) :=
  RowSelected.of_row ⟨"CALL_addr", 0xF000, 0x2000⟩ (by decide) rfl (formatA_and_F000 _ _)
    (by simp only [Instr.wf, decide_eq_true_eq]; omega)

theorem RowSelected.seVxKk (x : Reg) (kk : Byte) : RowSelected.Statement (.seVxKk x kk) :=
  RowSelected.of_row ⟨"SE_Vx_kk", 0xF000, 0x3000⟩ (by decide) rfl (formatXK_and_F000 _ _ _)
    (by simp only [Instr.wf, Bool.and_eq_true, decide_eq_true_eq]; omega)

theorem RowSelected.sneVxKk (x : Reg) (kk : Byte) : RowSelected.Statement (.sneVxKk x kk) :=
  RowSelected.of_row ⟨"SNE_Vx_kk", 0xF000, 0x4000⟩ (by decide) rfl (formatXK_and_F000 _ _ _)
    (by simp only [Instr.wf, Bool.and_eq_true, decide_eq_true_eq]; omega)

theorem RowSelected.seVxVy (x y : Reg) : RowSelected.Statement (.seVxVy x y) :=
  RowSelected.of_row ⟨"SE_Vx_Vy", 0xF00F, 0x5000⟩ (by decide) rfl (formatXYN_and_F00F _ _ _ _)
    (by simp only [Instr.wf, Bool.and_eq_true, decide_eq_true_eq]; omega)

theorem RowSelected.ldVxKk (x : Reg) (kk : Byte) : RowSelected.Statement (.ldVxKk x kk) :=
  RowSelected.of_row ⟨"LD_Vx_kk", 0xF000, 0x6000⟩ (by decide) rfl (formatXK_and_F000 _ _ _)
    (by simp only [Instr.wf, Bool.and_eq_true, decide_eq_true_eq]; omega)

theorem RowSelected.addVxKk (x : Reg) (kk : Byte) : RowSelected.Statement (.addVxKk x kk) :=
  RowSelected.of_row ⟨"ADD_Vx_kk", 0xF000, 0x7000⟩ (by decide) rfl (formatXK_and_F000 _ _ _)
    (by simp only [Instr.wf, Bool.and_eq_true, decide_eq_true_eq]; omega)

theorem RowSelected.ldVxVy (x y : Reg) : RowSelected.Statement (.ldVxVy x y) :=
  RowSelected.of_row ⟨"LD_Vx_Vy", 0xF00F, 0x8000⟩ (by decide) rfl (formatXYN_and_F00F _ _ _ _)
    (by simp only [Instr.wf, Bool.and_eq_true, decide_eq_true_eq]; omega)

theorem RowSelected.orVxVy (x y : Reg) : RowSelected.Statement (.orVxVy x y) :=
  RowSelected.of_row ⟨"OR_Vx_Vy", 0xF00F, 0x8001⟩ (by decide) rfl (formatXYN_and_F00F _ _ _ _)
    (by simp only [Instr.wf, Bool.and_eq_true, decide_eq_true_eq]; omega)

theorem RowSelected.andVxVy (x y : Reg) : RowSelected.Statement (.andVxVy x y) :=
  RowSelected.of_row ⟨"AND_Vx_Vy", 0xF00F, 0x8002⟩ (by decide) rfl (formatXYN_and_F00F _ _ _ _)
    (by simp only [Instr.wf, Bool.and_eq_true, decide_eq_true_eq]; omega)

theorem RowSelected.xorVxVy (x y : Reg) : RowSelected.Statement (.xorVxVy x y) :=
  RowSelected.of_row ⟨"XOR_Vx_Vy", 0xF00F, 0x8003⟩ (by decide) rfl (formatXYN_and_F00F _ _ _ _)
    (by simp only [Instr.wf, Bool.and_eq_true, decide_eq_true_eq]; omega)

theorem RowSelected.addVxVy (x y : Reg) : RowSelected.Statement (.addVxVy x y) :=
  RowSelected.of_row ⟨"ADD_Vx_Vy", 0xF00F, 0x8004⟩ (by decide) rfl (formatXYN_and_F00F _ _ _ _)
    (by simp only [Instr.wf, Bool.and_eq_true, decide_eq_true_eq]; omega)

theorem RowSelected.subVxVy (x y : Reg) : RowSelected.Statement (.subVxVy x y) :=
  RowSelected.of_row ⟨"SUB_Vx_Vy", 0xF00F, 0x8005⟩ (by decide) rfl (formatXYN_and_F00F _ _ _ _)
    (by simp only [Instr.wf, Bool.and_eq_true, decide_eq_true_eq]; omega)

theorem RowSelected.subnVxVy (x y : Reg) : RowSelected.Statement (.subnVxVy x y) :=
  RowSelected.of_row ⟨"SUBN_Vx_Vy", 0xF00F, 0x8007⟩ (by decide) rfl (formatXYN_and_F00F _ _ _ _)
    (by simp only [Instr.wf, Bool.and_eq_true, decide_eq_true_eq]; omega)

theorem RowSelected.shrVx (x y : Reg) : RowSelected.Statement (.shrVx x y) :=
  RowSelected.of_row ⟨"SHR_Vx", 0xF00F, 0x8006⟩ (by decide) rfl (formatXYN_and_F00F _ _ _ _)
    (by simp only [Instr.wf, Bool.and_eq_true, decide_eq_true_eq]; omega)

theorem RowSelected.shlVx (x y : Reg) : RowSelected.Statement (.shlVx x y) :=
  RowSelected.of_row ⟨"SHL_Vx", 0xF00F, 0x800E⟩ (by decide) rfl (formatXYN_and_F00F _ _ _ _)
    (by simp only [Instr.wf, Bool.and_eq_true, decide_eq_true_eq]; omega)

theorem RowSelected.sneVxVy (x y : Reg) : RowSelected.Statement (.sneVxVy x y) :=
  RowSelected.of_row ⟨"SNE_Vx_Vy", 0xF00F, 0x9000⟩ (by decide) rfl (formatXYN_and_F00F _ _ _ _)
    (by simp only [Instr.wf, Bool.and_eq_true, decide_eq_true_eq]; omega)

theorem RowSelected.ldIAddr (nnn : Addr12) : RowSelected.Statement (.ldIAddr nnn) :=
  RowSelected.of_row ⟨"LD_I_addr", 0xF000, 0xA000⟩ (by decide) rfl (formatA_and_F000 _ _)
    (by simp only [Instr.wf, decide_eq_true_eq]; omega)

theorem RowSelected.jpV0Addr (nnn : Addr12) : RowSelected.Statement (.jpV0Addr nnn) :=
  RowSelected.of_row ⟨"JP_V0_addr", 0xF000, 0xB000⟩ (by decide) rfl (formatA_and_F000 _ _)
    (by simp only [Instr.wf, decide_eq_true_eq]; omega)

theorem RowSelected.rndVxKk (x : Reg) (kk : Byte) : RowSelected.Statement (.rndVxKk x kk) :=
  RowSelected.of_row ⟨"RND_Vx_kk", 0xF000, 0xC000⟩ (by decide) rfl (formatXK_and_F000 _ _ _)
    (by simp only [Instr.wf, Bool.and_eq_true, decide_eq_true_eq]; omega)

theorem RowSelected.drwVxVyN (x y : Reg) (n : Fin 16) : RowSelected.Statement (.drwVxVyN x y n) :=
  RowSelected.of_row ⟨"DRW_Vx_Vy_n", 0xF000, 0xD000⟩ (by decide) rfl (formatXYN_and_F000 _ _ _ _)
    (by simp only [Instr.wf, Bool.and_eq_true, decide_eq_true_eq]; omega)

theorem RowSelected.skpVx (x : Reg) : RowSelected.Statement (.skpVx x) :=
  RowSelected.of_row ⟨"SKP_Vx", 0xF0FF, 0xE09E⟩ (by decide) rfl (formatXK_and_F0FF _ _ _)
    (by simp only [Instr.wf, decide_eq_true_eq]; omega)

theorem RowSelected.sknpVx (x : Reg) : RowSelected.Statement (.sknpVx x) :=
  RowSelected.of_row ⟨"SKNP_Vx", 0xF0FF, 0xE0A1⟩ (by decide) rfl (formatXK_and_F0FF _ _ _)
    (by simp only [Instr.wf, decide_eq_true_eq]; omega)

theorem RowSelected.ldVxDt (x : Reg) : RowSelected.Statement (.ldVxDt x) :=
  RowSelected.of_row ⟨"LD_Vx_DT", 0xF0FF, 0xF007⟩ (by decide) rfl (formatXK_and_F0FF _ _ _)
    (by simp only [Instr.wf, decide_eq_true_eq]; omega)

theorem RowSelected.ldVxK (x : Reg) : RowSelected.Statement (.ldVxK x) :=
  RowSelected.of_row ⟨"LD_Vx_K", 0xF0FF, 0xF00A⟩ (by decide) rfl (formatXK_and_F0FF _ _ _)
    (by simp only [Instr.wf, decide_eq_true_eq]; omega)

theorem RowSelected.ldDtVx (x : Reg) : RowSelected.Statement (.ldDtVx x) :=
  RowSelected.of_row ⟨"LD_DT_Vx", 0xF0FF, 0xF015⟩ (by decide) rfl (formatXK_and_F0FF _ _ _)
    (by simp only [Instr.wf, decide_eq_true_eq]; omega)

theorem RowSelected.ldStVx (x : Reg) : RowSelected.Statement (.ldStVx x) :=
  RowSelected.of_row ⟨"LD_ST_Vx", 0xF0FF, 0xF018⟩ (by decide) rfl (formatXK_and_F0FF _ _ _)
    (by simp only [Instr.wf, decide_eq_true_eq]; omega)

theorem RowSelected.addIVx (x : Reg) : RowSelected.Statement (.addIVx x) :=
  RowSelected.of_row ⟨"ADD_I_Vx", 0xF0FF, 0xF01E⟩ (by decide) rfl (formatXK_and_F0FF _ _ _)
    (by simp only [Instr.wf, decide_eq_true_eq]; omega)

theorem RowSelected.ldFVx (x : Reg) : RowSelected.Statement (.ldFVx x) :=
  RowSelected.of_row ⟨"LD_F_Vx", 0xF0FF, 0xF029⟩ (by decide) rfl (formatXK_and_F0FF _ _ _)
    (by simp only [Instr.wf, decide_eq_true_eq]; omega)

theorem RowSelected.ldBVx (x : Reg) : RowSelected.Statement (.ldBVx x) :=
  RowSelected.of_row ⟨"LD_B_Vx", 0xF0FF, 0xF033⟩ (by decide) rfl (formatXK_and_F0FF _ _ _)
    (by simp only [Instr.wf, decide_eq_true_eq]; omega)

theorem RowSelected.ldMemVx (x : Reg) : RowSelected.Statement (.ldMemVx x) :=
  RowSelected.of_row ⟨"LD__I__Vx", 0xF0FF, 0xF055⟩ (by decide) rfl (formatXK_and_F0FF _ _ _)
    (by simp only [Instr.wf, decide_eq_true_eq]; omega)

theorem RowSelected.ldVxMem (x : Reg) : RowSelected.Statement (.ldVxMem x) :=
  RowSelected.of_row ⟨"LD_Vx__I", 0xF0FF, 0xF065⟩ (by decide) rfl (formatXK_and_F0FF _ _ _)
    (by simp only [Instr.wf, decide_eq_true_eq]; omega)

/-- The types of the operands make every instruction well-formed (R53). -/
theorem instr_wf (i : Instr) : i.wf = true := by
  cases i with
  | cls => exact (RowSelected.cls).2
  | ret => exact (RowSelected.ret).2
  | jpAddr nnn => exact (RowSelected.jpAddr nnn).2
  | callAddr nnn => exact (RowSelected.callAddr nnn).2
  | seVxKk x kk => exact (RowSelected.seVxKk x kk).2
  | sneVxKk x kk => exact (RowSelected.sneVxKk x kk).2
  | seVxVy x y => exact (RowSelected.seVxVy x y).2
  | ldVxKk x kk => exact (RowSelected.ldVxKk x kk).2
  | addVxKk x kk => exact (RowSelected.addVxKk x kk).2
  | ldVxVy x y => exact (RowSelected.ldVxVy x y).2
  | orVxVy x y => exact (RowSelected.orVxVy x y).2
  | andVxVy x y => exact (RowSelected.andVxVy x y).2
  | xorVxVy x y => exact (RowSelected.xorVxVy x y).2
  | addVxVy x y => exact (RowSelected.addVxVy x y).2
  | subVxVy x y => exact (RowSelected.subVxVy x y).2
  | subnVxVy x y => exact (RowSelected.subnVxVy x y).2
  | shrVx x y => exact (RowSelected.shrVx x y).2
  | shlVx x y => exact (RowSelected.shlVx x y).2
  | sneVxVy x y => exact (RowSelected.sneVxVy x y).2
  | ldIAddr nnn => exact (RowSelected.ldIAddr nnn).2
  | jpV0Addr nnn => exact (RowSelected.jpV0Addr nnn).2
  | rndVxKk x kk => exact (RowSelected.rndVxKk x kk).2
  | drwVxVyN x y n => exact (RowSelected.drwVxVyN x y n).2
  | skpVx x => exact (RowSelected.skpVx x).2
  | sknpVx x => exact (RowSelected.sknpVx x).2
  | ldVxDt x => exact (RowSelected.ldVxDt x).2
  | ldVxK x => exact (RowSelected.ldVxK x).2
  | ldDtVx x => exact (RowSelected.ldDtVx x).2
  | ldStVx x => exact (RowSelected.ldStVx x).2
  | addIVx x => exact (RowSelected.addIVx x).2
  | ldFVx x => exact (RowSelected.ldFVx x).2
  | ldBVx x => exact (RowSelected.ldBVx x).2
  | ldMemVx x => exact (RowSelected.ldMemVx x).2
  | ldVxMem x => exact (RowSelected.ldVxMem x).2

end Sys2Proof.Laws
end

