-- ==== Sys2Proof/Laws/Step.lean ====
section
/-! SUPPORT. What one step can do, said once: which operation it runs, what each operation answers, and
the cases of a Step by mode. -/

namespace Sys2Proof.Machine

/-- With an operation scheduled, a step runs it (log 2). -/
theorem step_of_script {s : State} {op : HostOp} {rest : List HostOp} (h : s.script = op :: rest) :
    step s = runOp exec op { s with script := rest } := by
  simp only [step, hostStep, h]

/-- With nothing scheduled, a step is a Step with the next free inputs (log 1). -/
theorem step_of_no_script {s : State} (h : s.script = []) :
    step s = stepOp exec (freeInput s.hostCount) { s with hostCount := s.hostCount + 1 } := by
  simp only [step, hostStep, h]

/-- A step is one operation, run in a state that differs from `s` in the model's script and counter
only. -/
theorem step_cases (s : State) :
    ∃ (op : HostOp) (rest : List HostOp) (n : Nat),
      step s = runOp exec op { s with script := rest, hostCount := n } ∧
      ((s.script = op :: rest ∧ n = s.hostCount) ∨
        (s.script = [] ∧ rest = [] ∧ n = s.hostCount + 1 ∧ op = .step (freeInput s.hostCount))) := by
  obtain ⟨mem, v, i, pc, sp, stack, dt, st, fb, mode, script, input, hostCount, report, win⟩ := s
  cases script with
  | nil => exact ⟨_, [], hostCount + 1, rfl, Or.inr ⟨rfl, rfl, rfl, rfl⟩⟩
  | cons op rest => exact ⟨op, rest, hostCount, rfl, Or.inl ⟨rfl, rfl⟩⟩

/-- A Step of a halted machine (R71). -/
theorem stepOp_halted {s : State} {kind : FaultKind} (h : s.mode = .halted kind)
    (ex : Instr → State → Result) (inp : StepInput) :
    stepOp ex inp s = .next { s.present inp with report := .step (.fault kind) } := by
  simp only [stepOp, stepByMode, State.present_mode, h, haltedStep]

/-- A Step of a waiting machine (R72). -/
theorem stepOp_awaiting {s : State} {x : Reg} (h : s.mode = .awaitingKey x)
    (ex : Instr → State → Result) (inp : StepInput) :
    stepOp ex inp s = waitStep x (s.present inp) := by
  simp only [stepOp, stepByMode, State.present_mode, h]

/-- A Step of a running machine (R70). -/
theorem stepOp_running {s : State} (h : s.mode = .running) (ex : Instr → State → Result)
    (inp : StepInput) : stepOp ex inp s = runningStep ex (s.present inp) := by
  simp only [stepOp, stepByMode, State.present_mode, h]

/-- Presenting the inputs does not disturb the fetch. -/
@[simp] theorem State.fetch_present (s : State) (inp : StepInput) : (s.present inp).fetch = s.fetch := rfl

@[simp] theorem State.readByte_present (s : State) (inp : StepInput) (a : Nat) :
    (s.present inp).readByte a = s.readByte a := rfl

/-- What a running Step does: a fetch fault, an unknown word, or the decoded instruction (R137). -/
theorem runningStep_cases (ex : Instr → State → Result) (s : State) :
    (4094 < s.pc.toNat ∧ runningStep ex s = raise .memoryFault s) ∨
    ∃ op, s.pc.toNat ≤ 4094 ∧ s.fetch = some op ∧
      ((decodeWord op = none ∧ runningStep ex s = unknownStep op s) ∨
        ∃ i, decodeWord op = some i ∧ runningStep ex s = ex i s) := by
  by_cases h : s.pc.toNat ≤ 4094
  · have hf := s.fetch_eq
    rw [if_pos h] at hf
    refine Or.inr ⟨_, h, hf, ?_⟩
    rw [runningStep, hf, orRaise_some]
    cases hd : decodeWord (wordOfBytes (s.mem.read s.pc.toNat) (s.mem.read (s.pc.toNat + 1))) with
    | none => exact Or.inl ⟨rfl, rfl⟩
    | some i => exact Or.inr ⟨i, rfl, rfl⟩
  · have hf := s.fetch_eq
    rw [if_neg h] at hf
    exact Or.inl ⟨by omega, by rw [runningStep, hf, orRaise_none]⟩

/-- What a waiting Step does (R72). -/
theorem waitStep_cases (x : Reg) (s : State) :
    (s.input.keyPress = none ∧ waitStep x s = .next { s with report := .step .ok }) ∨
    ∃ k, s.input.keyPress = some k ∧ waitStep x s = .next
      { s.setReg x (BitVec.ofNat 8 k.val) with
        mode := .running, pc := s.pc + 2, report := .step .ok } := by
  unfold waitStep
  cases s.input.keyPress with
  | none => exact Or.inl ⟨rfl, rfl⟩
  | some k => exact Or.inr ⟨k, rfl, rfl⟩

/-- A storing instruction's meaning: it raises MemoryFault, or only memory, `pc` and the report change. -/
theorem store_cases {s t : State} {a : Nat} {bs : List Byte}
    (h : orRaise .memoryFault s (s.storeBytes a bs) retire = .next t) :
    (orRaise .memoryFault s (s.storeBytes a bs) retire = raise .memoryFault s) ∨
      ((bs.length = 0 ∨ a + bs.length ≤ 4096) ∧
        t = { s with mem := s.mem.writeAll a bs, pc := s.pc + 2, report := .step .ok }) := by
  rcases orRaise_eq h with ⟨ho, -⟩ | ⟨u, hu, hr⟩
  · exact Or.inl (by rw [ho, orRaise_none])
  · obtain ⟨hrange, rfl⟩ := State.storeBytes_eq_some.mp hu
    injection hr with hr
    exact Or.inr ⟨hrange, hr⟩

/-- What an instruction may do to the mode: keep it, wait (LD Vx,K), or halt by a fault. -/
theorem exec_mode {i : Instr} {s t : State} (h : exec i s = .next t) :
    t.mode = s.mode ∨
      (∃ x, i = .ldVxK x ∧ t = { s with mode := .awaitingKey x, report := .step .ok }) ∨
      ∃ kind, exec i s = raise kind s := by
  cases i with
  | ret =>
    by_cases hs : s.sp = 0
    · exact Or.inr (Or.inr ⟨.stackFault, by simp [exec, execRet, hs]⟩)
    · simp only [exec, execRet, if_neg hs] at h
      injection h with h; subst h; exact Or.inl rfl
  | callAddr nnn =>
    by_cases hs : s.sp = 15
    · exact Or.inr (Or.inr ⟨.stackFault, by simp [exec, execCallAddr, hs]⟩)
    · simp only [exec, execCallAddr, if_neg hs] at h
      injection h with h; subst h; exact Or.inl rfl
  | ldVxK x => injection h with h; subst h; exact Or.inr (Or.inl ⟨x, rfl, rfl⟩)
  | drwVxVyN x y n =>
    rcases orRaise_eq h with ⟨ho, -⟩ | ⟨bs, -, hr⟩
    · exact Or.inr (Or.inr ⟨.memoryFault, by rw [exec, execDrwVxVyN, ho, orRaise_none]⟩)
    · injection hr with hr; subst hr; exact Or.inl rfl
  | ldBVx x =>
    rcases store_cases h with hf | ⟨-, rfl⟩
    · exact Or.inr (Or.inr ⟨.memoryFault, hf⟩)
    · exact Or.inl rfl
  | ldMemVx x =>
    rcases store_cases h with hf | ⟨-, rfl⟩
    · exact Or.inr (Or.inr ⟨.memoryFault, hf⟩)
    · exact Or.inl rfl
  | ldVxMem x =>
    rcases orRaise_eq h with ⟨ho, -⟩ | ⟨bs, -, hr⟩
    · exact Or.inr (Or.inr ⟨.memoryFault, by rw [exec, execLdVxMem, ho, orRaise_none]⟩)
    · injection hr with hr; rw [hr, State.setRegsFrom_eq]; exact Or.inl rfl
  | _ => injection h with h; subst h; exact Or.inl rfl

end Sys2Proof.Machine
end

