-- ==== Sys2Proof/Tests/Slice0.lean ====
section
/-! SUPPORT. The model's own tests: decoding words written out from spec 30_encoding.md, the well-formedness
checks refusing ill-formed terms, single steps with the values of spec 95_test_vectors.md, and a witness for
the hypotheses of each statement of Certificates/Slice0/Obligations.lean that has any. -/

namespace Sys2Proof.Tests

open Sys2Proof Sys2Proof.Machine

/-! ### Helpers -/

/-- The next state of a result. -/
def next? : Result → Option State
  | .next t => some t
  | .fault _ => none
  | .refused _ => none

/-- What an instruction makes of a state. -/
def run (i : Instr) (s : State) : Option State := next? (exec i s)

/-- The reset state with registers set. -/
def regs (l : List (Reg × Byte)) : State := l.foldl (fun s p => s.setReg p.1 p.2) State.reset

/-- A state with bytes stored from an address, and `I` set. -/
def memAt (s : State) (a : Nat) (bs : List Byte) (i : Word) : State :=
  { s with mem := s.mem.writeAll a bs, i := i }

/-- A state that runs the word next, as a scheduled Step. -/
def ready (s : State) (w : Nat) (inp : StepInput) : State :=
  { s.withFetchWord 16 w with script := [.step inp] }

/-- No key, nothing random. -/
def idle : StepInput := ⟨0, none, 0⟩

/-! ### Decoding: words written out bit by bit from R51, R52, R55, with the fields of vector table T0 -/

theorem test_decode_display :
    decodeWord 0b0000_0000_1110_0000 = some .cls ∧
    decodeWord 0b1101_0001_0010_0101 = some (.drwVxVyN 1 2 5) := by decide

theorem test_decode_control :
    decodeWord 0b0000_0000_1110_1110 = some .ret ∧
    decodeWord 0b0001_0000_1110_0000 = some (.jpAddr 0x0E0) ∧
    decodeWord 0b0010_1010_1011_1100 = some (.callAddr 0xABC) ∧
    decodeWord 0b1011_0001_0010_0011 = some (.jpV0Addr 0x123) := by decide

theorem test_decode_skips :
    decodeWord 0b0011_1111_0000_0000 = some (.seVxKk 15 0x00) ∧
    decodeWord 0b0100_1010_0111_1111 = some (.sneVxKk 10 0x7F) ∧
    decodeWord 0b0101_1010_1011_0000 = some (.seVxVy 10 11) ∧
    decodeWord 0b1001_1010_1011_0000 = some (.sneVxVy 10 11) := by decide

theorem test_decode_byte_operand :
    decodeWord 0b0110_1010_0011_1100 = some (.ldVxKk 10 0x3C) ∧
    decodeWord 0b0111_1110_0000_0001 = some (.addVxKk 14 0x01) ∧
    decodeWord 0b1100_0001_1111_1111 = some (.rndVxKk 1 0xFF) := by decide

theorem test_decode_logic :
    decodeWord 0b1000_1010_1011_0000 = some (.ldVxVy 10 11) ∧
    decodeWord 0b1000_1010_1011_0001 = some (.orVxVy 10 11) ∧
    decodeWord 0b1000_1010_1011_0010 = some (.andVxVy 10 11) ∧
    decodeWord 0b1000_1010_1011_0011 = some (.xorVxVy 10 11) := by decide

theorem test_decode_arithmetic :
    decodeWord 0b1000_1010_1011_0100 = some (.addVxVy 10 11) ∧
    decodeWord 0b1000_1010_1011_0101 = some (.subVxVy 10 11) ∧
    decodeWord 0b1000_1010_1011_0111 = some (.subnVxVy 10 11) ∧
    decodeWord 0b1000_1010_1011_0110 = some (.shrVx 10 11) ∧
    decodeWord 0b1000_1010_1011_1110 = some (.shlVx 10 11) := by decide

theorem test_decode_index_memory :
    decodeWord 0b1010_0001_0010_0011 = some (.ldIAddr 0x123) ∧
    decodeWord 0b1111_0001_0001_1110 = some (.addIVx 1) ∧
    decodeWord 0b1111_0001_0010_1001 = some (.ldFVx 1) ∧
    decodeWord 0b1111_0001_0011_0011 = some (.ldBVx 1) ∧
    decodeWord 0b1111_0001_0101_0101 = some (.ldMemVx 1) ∧
    decodeWord 0b1111_0001_0110_0101 = some (.ldVxMem 1) := by decide

theorem test_decode_timers_keys :
    decodeWord 0b1110_0001_1001_1110 = some (.skpVx 1) ∧
    decodeWord 0b1110_0001_1010_0001 = some (.sknpVx 1) ∧
    decodeWord 0b1111_0001_0000_0111 = some (.ldVxDt 1) ∧
    decodeWord 0b1111_0001_0000_1010 = some (.ldVxK 1) ∧
    decodeWord 0b1111_0001_0001_0101 = some (.ldDtVx 1) ∧
    decodeWord 0b1111_0001_0001_1000 = some (.ldStVx 1) := by decide

/-- Vector table T0: words that are UNKNOWN (R56) are refused by the decoder and by the check. -/
theorem test_unknown_words_refused :
    
    [0x0000, 0x00E1, 0x00FE, 0x0123, 0x5AB1, 0x8AB8, 0x8ABD, 0x8ABF, 0x9ABF, 0xE19F, 0xE100, 0xF100, 0xF175, 0xF1FF, 0xFFFF].all (fun w =>
      (decodeWord w).isNone && !wordKnown w) = true := by decide

theorem test_truncated_bytes_refused :
    decode [0x6A] = .error .truncated ∧ decode [] = .error .truncated := ⟨rfl, rfl⟩

theorem test_unknown_bytes_refused :
    decode [0x5A, 0xB1, 0x00] = .error (.unknownOpcode 0x5AB1) := rfl

theorem test_decode_reads_two_bytes_high_first :
    decode [0x6A, 0x3C, 0x07] = .ok (.ldVxKk 10 0x3C, [0x07]) := rfl

theorem test_decodeTableWord : decodeTableWord 16 0x6A3C = some (.ldVxKk 10 0x3C) := by decide

/-! ### Well-formedness: ill-formed terms are refused -/

/-- An image of 3585 bytes is refused, one of 3584 is not (vector table T10). -/
theorem test_image_fits_boundary :
    imageFits (List.replicate 3584 0x00) = true ∧ imageFits (List.replicate 3585 0x00) = false := by
  simp only [imageFits, List.length_replicate]; decide

theorem test_memory_unsorted_refused : Memory.wf [(0x301, 1), (0x300, 1)] = false := by decide

theorem test_memory_repeated_refused : Memory.wf [(0x300, 1), (0x300, 2)] = false := by decide

/-- An entry equal to what an unlisted address reads as, outside and inside the font. -/
theorem test_memory_default_entry_refused :
    Memory.wf [(0x300, 0x00)] = false ∧ Memory.wf [(0x050, 0xF0)] = false := by decide

theorem test_memory_outside_refused :
    Memory.wf [(4096, 1)] = false ∧ Memory.wf [(4095, 1)] = true := by decide

theorem test_instr_types_admit_only_the_range :
    ∀ i : Instr, i.wf = true := fun i => by
  cases i <;> simp only [Instr.wf, Bool.and_eq_true, decide_eq_true_eq] <;> omega

/-! ### Single steps: the values of spec 95_test_vectors.md -/

/-! #### Control transfer (T3) -/

theorem test_ret :
    (run .ret { State.reset with sp := 1, stack := State.reset.stack.set 1 0x0206 }).map
      (fun t => (t.pc, t.sp)) = some (0x0206, 0) := by decide

theorem test_ret_empty_stack :
    (run .ret State.reset).map (fun t => (t.mode, t.pc)) = some (.halted .stackFault, 0x0200) := by decide

theorem test_jp : (run (.jpAddr 0x2E4) State.reset).map (fun t => t.pc) = some 0x02E4 := by decide

theorem test_call :
    (run (.callAddr 0x210) { State.reset with pc := 0x0204 }).map
      (fun t => (t.pc, t.sp, t.stack[1])) = some (0x0210, 1, 0x0206) := by decide

theorem test_call_full_stack :
    (run (.callAddr 0x300) { State.reset with sp := 15 }).map
      (fun t => (t.mode, t.pc, t.sp)) = some (.halted .stackFault, 0x0200, 15) := by decide

theorem test_se_byte :
    (run (.seVxKk 0 0x00) { State.reset with pc := 0x0FFE }).map (fun t => t.pc) = some 0x1002 := by decide

theorem test_se_byte_not_taken :
    (run (.seVxKk 0 0x00) (regs [(0, 1)])).map (fun t => t.pc) = some 0x0202 := by decide

theorem test_sne_byte :
    (run (.sneVxKk 2 0x11) (regs [(2, 0x10)])).map (fun t => t.pc) = some 0x0204 := by decide

theorem test_sne_byte_not_taken :
    (run (.sneVxKk 2 0x10) (regs [(2, 0x10)])).map (fun t => t.pc) = some 0x0202 := by decide

theorem test_se_regs :
    (run (.seVxVy 3 3) (regs [(3, 9)])).map (fun t => t.pc) = some 0x0204 := by decide

theorem test_se_regs_not_taken :
    (run (.seVxVy 1 2) (regs [(1, 7), (2, 8)])).map (fun t => t.pc) = some 0x0202 := by decide

theorem test_sne_regs :
    (run (.sneVxVy 1 2) (regs [(1, 7), (2, 8)])).map (fun t => t.pc) = some 0x0204 := by decide

theorem test_sne_regs_not_taken :
    (run (.sneVxVy 3 3) (regs [(3, 9)])).map (fun t => t.pc) = some 0x0202 := by decide

theorem test_jp_v0 :
    (run (.jpV0Addr 0x300) (regs [(0, 5)])).map (fun t => t.pc) = some 0x0305 := by decide

theorem test_jp_v0_past_memory :
    (run (.jpV0Addr 0xFFF) (regs [(0, 0xFF)])).map (fun t => t.pc) = some 0x10FE := by decide

/-! #### Registers and arithmetic (T2) -/

theorem test_ld_byte :
    (run (.ldVxKk 10 0x3C) (regs [])).map (fun t => (t.reg 10, t.reg 15))
      = some (0x3C, 0x00) := by decide

theorem test_add_byte_no_carry_flag :
    (run (.addVxKk 0 0x02) (regs [(0, 0xFF)])).map (fun t => (t.reg 0, t.reg 15))
      = some (0x01, 0x00) := by decide

theorem test_add_byte_to_vf :
    (run (.addVxKk 15 0x01) (regs [(15, 0xFF)])).map (fun t => (t.reg 15, t.reg 15))
      = some (0x00, 0x00) := by decide

theorem test_ld_regs_from_vf :
    (run (.ldVxVy 14 15) (regs [(15, 0x01)])).map (fun t => (t.reg 14, t.reg 15))
      = some (0x01, 0x01) := by decide

theorem test_or :
    (run (.orVxVy 1 2) (regs [(1, 0xF0), (2, 0x3C), (15, 0x07)])).map (fun t => (t.reg 1, t.reg 15))
      = some (0xFC, 0x07) := by decide

theorem test_and :
    (run (.andVxVy 1 2) (regs [(1, 0xF0), (2, 0x3C), (15, 0x07)])).map (fun t => (t.reg 1, t.reg 15))
      = some (0x30, 0x07) := by decide

theorem test_xor :
    (run (.xorVxVy 1 2) (regs [(1, 0xF0), (2, 0x3C), (15, 0x07)])).map (fun t => (t.reg 1, t.reg 15))
      = some (0xCC, 0x07) := by decide

theorem test_add_regs_vf_source :
    (run (.addVxVy 1 15) (regs [(1, 0xFF), (15, 0x01)])).map (fun t => (t.reg 1, t.reg 15))
      = some (0x00, 0x01) := by decide

theorem test_add_regs_flag_wins :
    (run (.addVxVy 15 1) (regs [(15, 0x02), (1, 0x03)])).map (fun t => (t.reg 15, t.reg 15))
      = some (0x00, 0x00) := by decide

theorem test_sub_borrow :
    (run (.subVxVy 1 2) (regs [(1, 0x05), (2, 0x07)])).map (fun t => (t.reg 1, t.reg 15))
      = some (0xFE, 0x00) := by decide

theorem test_sub_equal :
    (run (.subVxVy 3 3) (regs [(3, 0x55)])).map (fun t => (t.reg 3, t.reg 15))
      = some (0x00, 0x01) := by decide

theorem test_subn :
    (run (.subnVxVy 1 2) (regs [(1, 0x05), (2, 0x07)])).map (fun t => (t.reg 1, t.reg 15))
      = some (0x02, 0x01) := by decide

theorem test_subn_borrow :
    (run (.subnVxVy 1 2) (regs [(1, 0x07), (2, 0x05)])).map (fun t => (t.reg 1, t.reg 15))
      = some (0xFE, 0x00) := by decide

theorem test_shr_ignores_y :
    (run (.shrVx 3 7) (regs [(3, 0x05), (7, 0xFF)])).map (fun t => (t.reg 3, t.reg 15))
      = some (0x02, 0x01) := by decide

theorem test_shr_clears_flag :
    (run (.shrVx 3 0) (regs [(3, 0x80), (15, 0x01)])).map (fun t => (t.reg 3, t.reg 15))
      = some (0x40, 0x00) := by decide

theorem test_shl :
    (run (.shlVx 3 0) (regs [(3, 0x81)])).map (fun t => (t.reg 3, t.reg 15))
      = some (0x02, 0x01) := by decide

theorem test_shl_of_vf :
    (run (.shlVx 15 0) (regs [(15, 0x41)])).map (fun t => (t.reg 15, t.reg 15))
      = some (0x00, 0x00) := by decide

theorem test_rnd :
    (run (.rndVxKk 1 0x0F) { State.reset with input := ⟨0, none, 0xA7⟩ }).map (fun t => t.reg 1)
      = some 0x07 := by decide

/-! #### Index and memory (T5) -/

theorem test_ld_i : (run (.ldIAddr 0xFFF) State.reset).map (fun t => t.i) = some 0x0FFF := by decide

theorem test_add_i :
    (run (.addIVx 4) { regs [(4, 0x20)] with i := 0x02F0 }).map (fun t => t.i) = some 0x0310 := by decide

theorem test_add_i_wraps_without_flag :
    (run (.addIVx 4) { regs [(4, 0xFF)] with i := 0x0FFF }).map
      (fun t => (t.i, t.reg 15)) = some (0x00FE, 0x00) := by decide

theorem test_ld_f :
    (run (.ldFVx 0) (regs [(0, 0x07)])).map (fun t => t.i) = some 0x0073 := by decide

theorem test_ld_f_low_nibble :
    (run (.ldFVx 0) (regs [(0, 0x1A)])).map (fun t => t.i) = some 0x0082 := by decide

theorem test_bcd_last_legal_base :
    (run (.ldBVx 0) { regs [(0, 0x7B)] with i := 0x0FFD }).map
      (fun t => (t.readByte 0xFFD, t.readByte 0xFFE, t.readByte 0xFFF)) = some (some 1, some 2, some 3) := by decide

theorem test_bcd_faults_whole :
    (run (.ldBVx 0) { regs [(0, 0x7B)] with i := 0x0FFE }).map
      (fun t => (t.readByte 0xFFE, t.readByte 0xFFF, t.mode))
      = some (some 0, some 0, .halted .memoryFault) := by decide

theorem test_block_store :
    (run (.ldMemVx 2) { regs [(0, 0x11), (1, 0x22), (2, 0x33), (3, 0x44)] with i := 0x0400 }).map
      (fun t => (t.mem, t.i)) = some ([(0x400, 0x11), (0x401, 0x22), (0x402, 0x33)], 0x0400) := by decide

theorem test_block_store_faults_whole :
    (run (.ldMemVx 1) { regs [(0, 0x77), (1, 0x88)] with i := 0x0FFF }).map
      (fun t => (t.readByte 0xFFF, t.mode)) = some (some 0, .halted .memoryFault) := by decide

theorem test_block_load :
    (run (.ldVxMem 2) (memAt (regs [(3, 0xEE)]) 0x300 [2, 3, 4, 5] 0x0300)).map
      (fun t => (t.reg 0, t.reg 1, t.reg 2, t.reg 3)) = some (2, 3, 4, 0xEE) := by decide

theorem test_block_load_font :
    (run (.ldVxMem 15) { State.reset with i := 0x0050 }).map (fun t => t.v.toList)
      = some [0xF0, 0x90, 0x90, 0x90, 0xF0, 0x20, 0x60, 0x20, 0x20, 0x70, 0xF0, 0x10, 0xF0, 0x80,
        0xF0, 0xF0] := by decide

/-! #### Display (T6) -/

theorem test_cls :
    (run .cls { regs [(15, 1)] with fb := State.reset.fb.set 3 0x10 }).map
      (fun t => (t.pixel 3 4, t.reg 15, t.pc)) = some (false, 1, 0x0202) := by decide

/-- Origin column 63, row 31: row 31 gets columns 63 and 0 to 6, row 0 columns 63 and 6. -/
theorem test_drw_wraps :
    (run (.drwVxVyN 1 2 2) (memAt (regs [(1, 0xFF), (2, 0xFF)]) 0x300 [0xFF, 0x81] 0x0300)).map
      (fun t => (t.fb[31], t.fb[0], t.reg 15))
      = some (0x800000000000007F, 0x8000000000000040, 0) := by decide

theorem test_drw_collision :
    (run (.drwVxVyN 1 2 1) { memAt (regs [(1, 1)]) 0x300 [0xC0] 0x0300 with
        fb := State.reset.fb.set 0 0b11 }).map (fun t => (t.fb[0], t.reg 15)) = some (0b101, 1) := by decide

/-! #### Keys and timers (T7) -/

theorem test_skp_low_nibble :
    (run (.skpVx 5) { regs [(5, 0x1A)] with input := ⟨0x0400, none, 0⟩ }).map (fun t => t.pc)
      = some 0x0204 := by decide

theorem test_skp_ignores_press :
    (run (.skpVx 5) { regs [(5, 0x0A)] with input := ⟨0xFBFF, some 10, 0⟩ }).map
      (fun t => t.pc) = some 0x0202 := by decide

theorem test_sknp :
    (run (.sknpVx 5) { regs [(5, 0x0A)] with input := ⟨0x0400, none, 0⟩ }).map (fun t => t.pc)
      = some 0x0202 := by decide

theorem test_sknp_taken :
    (run (.sknpVx 5) (regs [(5, 0x0A)])).map (fun t => t.pc) = some 0x0204 := by decide

theorem test_ld_from_dt :
    (run (.ldVxDt 3) { State.reset with dt := 0x2A }).map (fun t => (t.reg 3, t.dt))
      = some (0x2A, 0x2A) := by decide

theorem test_wait_key_enters :
    (run (.ldVxK 1) { State.reset with pc := 0x0206, input := ⟨0x80, some 7, 0⟩ }).map
      (fun t => (t.mode, t.pc, t.reg 1)) = some (.awaitingKey 1, 0x0206, 0) := by decide

theorem test_ld_dt :
    (run (.ldDtVx 0) (regs [(0, 3)])).map (fun t => (t.dt, t.st)) = some (3, 0) := by decide

theorem test_ld_st_zero_is_no_beep :
    (run (.ldStVx 0) { State.reset with st := 1 }).map (fun t => (t.st, t.report))
      = some (0, .step .ok) := by decide

/-! #### The engine and the host (T1, T4, T8, T9, T10) -/

theorem test_step_runs_the_word :
    (next? (step (ready State.reset 0x6A3C idle))).map (fun t => (t.reg 10, t.pc))
      = some (0x3C, 0x0202) := by decide

theorem test_step_at_odd_address :
    (next? (step (ready { State.reset with pc := 0x0305 } 0x6B07 idle))).map
      (fun t => (t.reg 11, t.pc)) = some (0x07, 0x0307) := by decide

theorem test_unknown_is_skipped :
    (next? (step (ready (regs [(1, 7), (2, 7)]) 0x5121 idle))).map (fun t => (t.pc, t.report))
      = some (0x0202, .step (.unknownOpcode 0x5121)) := by decide

theorem test_fetch_past_memory :
    (next? (step { State.reset with pc := 0x0FFF, script := [.step idle] })).map
      (fun t => (t.mode, t.pc)) = some (.halted .memoryFault, 0x0FFF) := by decide

theorem test_wait_takes_the_press :
    (next? (step { State.reset with mode := .awaitingKey 1, pc := 0x0206, script :=
        [.step ⟨0xFFFF, some 11, 0⟩] })).map (fun t => (t.reg 1, t.mode, t.pc))
      = some (0x0B, .running, 0x0208) := by decide

theorem test_wait_ignores_held_keys :
    (next? (step { State.reset with mode := .awaitingKey 1, pc := 0x0206, script :=
        [.step ⟨0xFFFF, none, 0⟩] })).map (fun t => (t.mode, t.pc)) = some (.awaitingKey 1, 0x0206) := by decide

theorem test_tick_beeps :
    (next? (step { State.reset with dt := 2, st := 1, script := [.tick] })).map
      (fun t => (t.dt, t.st, t.report)) = some (1, 0, .tick true) := by decide

theorem test_tick_frozen_while_halted :
    (next? (step { State.reset with dt := 3, st := 1, mode := .halted .stackFault, script :=
        [.tick] })).map (fun t => (t.dt, t.st, t.report)) = some (3, 1, .tick false) := by decide

theorem test_load :
    (next? (step { State.reset with script := [.load [0x60, 0x01, 0x12]] })).map
      (fun t => (t.readByte 0x200, t.readByte 0x202, t.readByte 0x203, t.report))
      = some (some 0x60, some 0x12, some 0x00, .load .ok) := by decide

theorem test_load_outside_window :
    next? (step { State.reset with loadWindow := false, script := [.load [0x60]] }) = none := by decide

theorem test_reset_memory :
    (State.reset.readByte 0x050, State.reset.readByte 0x09F, State.reset.readByte 0x04F,
      State.reset.readByte 0x0A0, State.reset.readByte 0x200)
      = (some 0xF0, some 0x80, some 0x00, some 0x00, some 0x00) := by decide

/-- With no script the Step has free inputs, which a jump does not read. -/
theorem test_first_step_after_reset_runs_the_word :
    (next? (step (State.reset.withFetchWord 16 0x12E4))).map (fun t => t.pc) = some 0x02E4 := rfl

/-! ### Witnesses: concrete states and operands that meet the hypotheses of each statement, clause by clause -/

/-- A machine at word 6A3C, with a Step scheduled. -/
def atWord : State := ready State.reset 0x6A3C idle

theorem witness_EncodeOfDecodeIsTheWord : ∃ op i, decodeWord op = some i :=
  ⟨0x8AB6, .shrVx 10 11, by decide⟩

theorem witness_RunningStepRunsTheDecodedInstruction_scheduled :
    atWord.mode = .running ∧ atWord.readByte atWord.pc.toNat = some 0x6A ∧
    atWord.readByte (atWord.pc.toNat + 1) = some 0x3C ∧
    decodeWord (wordOfBytes 0x6A 0x3C) = some (.ldVxKk 10 0x3C) ∧
    atWord.script = .step idle :: [] := by decide

theorem witness_RunningStepRunsTheDecodedInstruction_free :
    let s := State.reset.withFetchWord 16 0x6A3C
    s.mode = .running ∧ s.readByte s.pc.toNat = some 0x6A ∧
    s.readByte (s.pc.toNat + 1) = some 0x3C ∧
    decodeWord (wordOfBytes 0x6A 0x3C) = some (.ldVxKk 10 0x3C) ∧ s.script = [] := by decide

theorem witness_UnknownOpcodeIsNotAFault :
    let s := ready State.reset 0x8AB8 idle
    s.mode = .running ∧ s.readByte s.pc.toNat = some 0x8A ∧
    s.readByte (s.pc.toNat + 1) = some 0xB8 ∧ decodeWord (wordOfBytes 0x8A 0xB8) = none ∧
    s.script = .step idle :: [] := by decide

theorem witness_FetchOutsideMemoryHalts :
    let s := { State.reset with pc := 0x0FFF, script := [.step idle] }
    s.mode = .running ∧ 4094 < s.pc.toNat ∧ s.script = .step idle :: [] := by decide

/-- The lowest and the highest key, and no key. -/
theorem witness_WaitingStepTakesOnlyAKeyPress (inp : StepInput)
    (h : inp = ⟨0xFFFF, none, 0⟩ ∨ inp = ⟨0, some 0, 0⟩ ∨ inp = ⟨0, some 15, 0⟩) :
    let s := { State.reset with mode := .awaitingKey 15, script := [.step inp] }
    s.mode = .awaitingKey 15 ∧ s.script = .step inp :: [] ∧
    (inp.keyPress = none ∨ inp.keyPress = some 0 ∨ inp.keyPress = some 15) := by
  rcases h with rfl | rfl | rfl <;> decide

/-- A Step, a Tick and an FbRead of a halted machine. -/
theorem witness_HaltedMachineOnlyReports (op : HostOp)
    (h : op = .step idle ∨ op = .tick ∨ op = .fbRead 31 63) :
    let s := { State.reset with mode := .halted .stackFault, script := [op] }
    s.mode = .halted .stackFault ∧ s.script = op :: [] ∧ op ≠ .reset ∧ ∀ im, op ≠ .load im := by
  rcases h with rfl | rfl | rfl <;> exact ⟨rfl, rfl, by decide, fun _ => nofun⟩

/-- The last address a fetch reaches, and the first from which there is none. -/
theorem witness_FetchIsBigEndianAtAnyAddress :
    ({ State.reset with pc := 0x0FFE } : State).pc.toNat ≤ 4094 ∧
    4094 < ({ State.reset with pc := 0x0FFF } : State).pc.toNat := by decide

/-- An instruction that reads no input; one that reads the keys, with the keys the same; one that reads the
random byte, with it the same. -/
theorem witness_InputsReachOnlyTheirReaders :
    (∃ t, exec (.ldVxKk 1 2) State.reset = .next t) ∧
    (∀ x, Instr.ldVxKk 1 2 ≠ .skpVx x ∧ Instr.ldVxKk 1 2 ≠ .sknpVx x) ∧
    (∀ x kk, Instr.ldVxKk 1 2 ≠ .rndVxKk x kk) ∧
    (∃ t, exec (.skpVx 1) State.reset = .next t) ∧
    (⟨0, some 3, 9⟩ : StepInput).keysHeld = State.reset.input.keysHeld ∧
    (∃ t, exec (.rndVxKk 1 2) State.reset = .next t) ∧
    (⟨7, some 3, 0⟩ : StepInput).rnd = State.reset.input.rnd :=
  ⟨⟨_, rfl⟩, fun _ => ⟨nofun, nofun⟩, fun _ _ => nofun, ⟨_, rfl⟩, rfl, ⟨_, rfl⟩, rfl⟩

/-- Reset out of a halt; a halted Step; a wait completed and one not; a running machine that waits and one
that halts. -/
theorem witness_ModeChangesAreTheListedOnes (s : State)
    (h : s = { State.reset with mode := .halted .stackFault, script := [.reset] } ∨
      s = { State.reset with mode := .halted .memoryFault, script := [.step idle] } ∨
      s = { State.reset with mode := .awaitingKey 3, script := [.step ⟨0, some 4, 0⟩] } ∨
      s = { State.reset with mode := .awaitingKey 3, script := [.step idle] } ∨
      s = ready State.reset 0xF30A idle ∨ s = ready State.reset 0x00EE idle) :
    (∃ op rest, s.script = op :: rest) ∧ ∃ t, step s = .next t := by
  rcases h with rfl | rfl | rfl | rfl | rfl | rfl <;> exact ⟨⟨_, _, rfl⟩, ⟨_, rfl⟩⟩

theorem witness_FaultsChangeOnlyTheMode :
    State.reset.mode = .running ∧
    ∃ t, exec .ret State.reset = .next t ∧ t.mode = .halted .stackFault :=
  ⟨rfl, _, rfl, rfl⟩

/-- Both sides of every bound in the list of causes. -/
theorem witness_FaultCausesAreExactlyTheListed :
    State.reset.mode = .running ∧
    (run .ret State.reset).map (fun t => t.mode) = some (.halted .stackFault) ∧
    (run .ret { State.reset with sp := 1 }).map (fun t => t.mode) = some .running ∧
    (run (.callAddr 0) { State.reset with sp := 15 }).map (fun t => t.mode)
      = some (.halted .stackFault) ∧
    (run (.callAddr 0) { State.reset with sp := 14 }).map (fun t => t.mode) = some .running ∧
    (run (.drwVxVyN 0 1 3) { State.reset with i := 0x0FFE }).map (fun t => t.mode)
      = some (.halted .memoryFault) ∧
    (run (.drwVxVyN 0 1 3) { State.reset with i := 0x0FFD }).map (fun t => t.mode) = some .running ∧
    (run (.ldBVx 0) { State.reset with i := 0x0FFE }).map (fun t => t.mode)
      = some (.halted .memoryFault) ∧
    (run (.ldBVx 0) { State.reset with i := 0x0FFD }).map (fun t => t.mode) = some .running ∧
    (run (.ldMemVx 15) { State.reset with i := 0x0FF1 }).map (fun t => t.mode)
      = some (.halted .memoryFault) ∧
    (run (.ldVxMem 15) { State.reset with i := 0x0FF0 }).map (fun t => t.mode) = some .running := by
  decide

theorem witness_EveryStepReturnsOneOutcome : atWord.script = .step idle :: [] := rfl

theorem witness_OtherInstructionsAdvanceByTwo :
    ∃ t, Completes (.addVxKk 0 0xFF) State.reset t := ⟨_, rfl, rfl⟩

/-- A stack of one address, and an empty one. -/
theorem witness_ReturnPopsTheReturnAddress :
    ({ State.reset with sp := 1 } : State).sp ≠ 0 ∧ State.reset.sp = 0 := by decide

/-- The last call that fits, and the first that does not. -/
theorem witness_CallPushesTheReturnAddress :
    ({ State.reset with sp := 14 } : State).sp ≠ 15 ∧
    ({ State.reset with sp := 15 } : State).sp = 15 := by decide

theorem witness_CallThenReturnComesBack : ({ State.reset with sp := 14 } : State).sp ≠ 15 := by decide

/-- Clauses with `x ≠ 15` in the flag-writing instructions: the registers next to VF. -/
theorem witness_flag_writers : (14 : Reg) ≠ 15 ∧ (0 : Reg) ≠ 15 := by decide

theorem witness_OnlySixInstructionsWriteTheFlagAside :
    (∃ t, exec (.addVxKk 14 0xFF) State.reset = .next t) ∧
    (∀ x y, Instr.addVxKk 14 0xFF ≠ .addVxVy x y ∧ Instr.addVxKk 14 0xFF ≠ .subVxVy x y ∧
      Instr.addVxKk 14 0xFF ≠ .subnVxVy x y ∧ Instr.addVxKk 14 0xFF ≠ .shrVx x y ∧
      Instr.addVxKk 14 0xFF ≠ .shlVx x y) ∧
    (∀ x y n, Instr.addVxKk 14 0xFF ≠ .drwVxVyN x y n) ∧
    (∀ kk, Instr.addVxKk 14 0xFF ≠ .ldVxKk 15 kk ∧ Instr.addVxKk 14 0xFF ≠ .addVxKk 15 kk ∧
      Instr.addVxKk 14 0xFF ≠ .rndVxKk 15 kk) ∧
    (∀ y, Instr.addVxKk 14 0xFF ≠ .ldVxVy 15 y ∧ Instr.addVxKk 14 0xFF ≠ .orVxVy 15 y ∧
      Instr.addVxKk 14 0xFF ≠ .andVxVy 15 y ∧ Instr.addVxKk 14 0xFF ≠ .xorVxVy 15 y) ∧
    Instr.addVxKk 14 0xFF ≠ .ldVxDt 15 ∧ Instr.addVxKk 14 0xFF ≠ .ldVxMem 15 :=
  ⟨⟨_, rfl⟩, by simp, by simp, by simp, by simp, by simp, by simp⟩

/-- The last base that fits and the first that does not. -/
theorem witness_BcdStoresHundredsTensOnes :
    State.reset.mem.wf = true ∧ ({ State.reset with i := 0x0FFD } : State).i.toNat ≤ 4093 ∧
    4093 < ({ State.reset with i := 0x0FFE } : State).i.toNat := by decide

theorem witness_BlockStoreCopiesRegistersToMemory :
    State.reset.mem.wf = true ∧
    ({ State.reset with i := 0x0FF0 } : State).i.toNat + (15 : Reg).val ≤ 4095 ∧
    4095 < ({ State.reset with i := 0x0FF1 } : State).i.toNat + (15 : Reg).val := by decide

theorem witness_BlockLoadCopiesMemoryToRegisters :
    ({ State.reset with i := 0x0FFF } : State).i.toNat + (0 : Reg).val ≤ 4095 ∧
    4095 < ({ State.reset with i := 0x0FFF } : State).i.toNat + (1 : Reg).val := by decide

theorem witness_BlockLoadUndoesBlockStore :
    State.reset.mem.wf = true ∧
    ({ State.reset with i := 0x0FF0 } : State).i.toNat + (15 : Reg).val ≤ 4095 ∧
    (0 : Reg) ≤ 14 ∧ (14 : Reg) < 15 := by decide

/-- Program P7: the word stored by the instruction at 0x206 is the next one fetched. -/
theorem witness_StoreIsSeenByTheNextFetch :
    State.reset.mem.wf = true ∧
    ∃ t, Completes (.ldMemVx 1) { regs [(0, 0x12), (1, 0x0A)] with i := 0x0208, pc := 0x0206 } t ∧
      0 + 1 ≤ (1 : Reg).val ∧ t.pc.toNat = 0x0208 + 0 :=
  ⟨rfl, _, ⟨rfl, rfl⟩, by decide, rfl⟩

/-- An instruction that writes none of the components but `pc`: all six clauses apply to it. -/
theorem witness_EachComponentHasOnlyItsWriters :
    (∃ t, exec (.jpAddr 0x2E4) State.reset = .next t) ∧
    (∀ nnn, Instr.jpAddr 0x2E4 ≠ .ldIAddr nnn ∧ Instr.jpAddr 0x2E4 ≠ .callAddr nnn) ∧
    (∀ x, Instr.jpAddr 0x2E4 ≠ .addIVx x ∧ Instr.jpAddr 0x2E4 ≠ .ldFVx x ∧
      Instr.jpAddr 0x2E4 ≠ .ldBVx x ∧ Instr.jpAddr 0x2E4 ≠ .ldMemVx x ∧
      Instr.jpAddr 0x2E4 ≠ .ldDtVx x ∧ Instr.jpAddr 0x2E4 ≠ .ldStVx x) ∧
    (∀ x y n, Instr.jpAddr 0x2E4 ≠ .drwVxVyN x y n) ∧
    Instr.jpAddr 0x2E4 ≠ .ret ∧ Instr.jpAddr 0x2E4 ≠ .cls :=
  ⟨⟨_, rfl⟩, by simp, by simp, by simp, by simp, by simp⟩

/-- No row at all from the last address, the last base of three rows, and a drawing in which one pixel goes
off and one in which none does. -/
theorem witness_DrawXorsTheSpriteAndReportsCollision :
    ((0 : Fin 16) = 0 ∨ ({ State.reset with i := 0x0FFF } : State).i.toNat + 0 - 1 ≤ 4095) ∧
    ({ State.reset with i := 0x0FFD } : State).i.toNat + (3 : Fin 16).val - 1 ≤ 4095 ∧
    (run (.drwVxVyN 0 1 1) { State.reset with i := 0x0050, fb := State.reset.fb.set 0 1 }).map
      (fun t => (t.pixel 0 0, t.reg 15)) = some (false, 1) ∧
    (run (.drwVxVyN 0 1 1) { State.reset with i := 0x0050, fb := State.reset.fb.set 1 1 }).map
      (fun t => (t.pixel 1 0, t.reg 15)) = some (true, 0) := by decide

theorem witness_DrawPastMemoryFaults :
    (3 : Fin 16) ≠ 0 ∧
    4095 < ({ State.reset with i := 0x0FFE } : State).i.toNat + (3 : Fin 16).val - 1 := by decide

/-- A sprite in the font, drawn on an empty display. -/
theorem witness_DrawingTwiceRestoresTheDisplay :
    (0 : Reg) ≠ 15 ∧ (1 : Reg) ≠ 15 ∧
    ({ State.reset with i := 0x0050 } : State).i.toNat + (5 : Fin 16).val - 1 ≤ 4095 ∧
    (∀ r c, ({ State.reset with i := 0x0050 } : State).pixel r c = false) ∧
    ∃ r c, SpriteCovers { State.reset with i := 0x0050 } 0 1 5 r c :=
  ⟨by decide, by decide, by decide, fun r c => by simp [State.pixel, State.reset],
    0, 0, 0, 0, by decide, by decide, by decide, by decide, by decide⟩

theorem witness_DrawAfterClearNeverCollides :
    ({ State.reset with i := 0x0FFF } : State).i.toNat + (1 : Fin 16).val - 1 ≤ 4095 := by decide

/-- An instruction that touches no timer, the two writers and the reader. -/
theorem witness_TimersAreReadOnlyByTheirReader (i : Instr)
    (h : i = .cls ∨ i = .ldStVx 15 ∨ i = .ldDtVx 15 ∨ i = .ldVxDt 15) :
    ∃ t, exec i State.reset = .next t := by
  rcases h with rfl | rfl | rfl | rfl <;> exact ⟨_, rfl⟩

/-- A running and a waiting machine. -/
theorem witness_TickCountsEachTimerDown (m : Mode) (h : m = .running ∨ m = .awaitingKey 0) :
    let s := { State.reset with mode := m, dt := 1, script := [.tick] }
    s.script = .tick :: [] ∧ ∀ kind, s.mode ≠ .halted kind := by
  rcases h with rfl | rfl <;> exact ⟨rfl, fun _ => nofun⟩

/-- A Tick that beeps, one that does not, and a Step. -/
theorem witness_BeepIsExactlyTheTickFromOneToZero :
    (next? (step { State.reset with st := 1, script := [.tick] })).map (fun t => t.report)
      = some (.tick true) ∧
    (next? (step { State.reset with st := 2, script := [.tick] })).map (fun t => t.report)
      = some (.tick false) ∧
    (next? (step { State.reset with st := 1, script := [.step idle] })).map (fun t => t.report)
      = some (.step (.unknownOpcode 0)) := by decide

/-- The shortest and the longest image. -/
theorem witness_LoadCopiesTheImageVerbatim (image : List Byte)
    (h : image = [] ∨ image = List.replicate 3584 0x01) :
    let s := { State.reset with script := [.load image] }
    s.script = .load image :: [] ∧ s.loadWindow = true ∧ s.mem.wf = true ∧ image.length ≤ 3584 := by
  rcases h with rfl | rfl
  · exact ⟨rfl, rfl, rfl, by decide⟩
  · exact ⟨rfl, rfl, rfl, by rw [List.length_replicate]⟩

theorem witness_TooLongImageIsALoadError :
    let s := { State.reset with script := [.load (List.replicate 3585 0x01)] }
    s.script = .load (List.replicate 3585 0x01) :: [] ∧ s.loadWindow = true ∧
    3584 < (List.replicate 3585 (0x01 : Byte)).length :=
  ⟨rfl, rfl, by rw [List.length_replicate]; decide⟩

/-- A Load outside its window, and every operation that answers. -/
theorem witness_LoadIsLegalOnlyInItsWindow :
    ({ State.reset with loadWindow := false, script := [.load []] } : State).loadWindow = false ∧
    ([.reset, .tick, .step idle, .load [0x12], .fbRead 0 0] : List HostOp).map (fun op =>
      (next? (step { State.reset with script := [op] })).map fun t => t.loadWindow)
      = [some true, some false, some false, some false, some true] := by decide

/-- A halted machine with a Reset scheduled; both ends of the cleared memory and of the font. -/
theorem witness_ResetPutsEveryComponentAtItsResetValue :
    ({ State.reset with mode := .halted .memoryFault, dt := 9, script := [.reset] } : State).script
      = .reset :: [] ∧
    (0x04F < 0x050 ∧ 0x09F < 0x0A0) ∧ (0 < 16 ∧ 15 < 16 ∧ 0 < 5 ∧ 4 < 5) ∧ 4095 < 4096 := by decide

theorem witness_FrameBufferReadChangesNothing :
    ({ State.reset with mode := .halted .memoryFault, script := [.fbRead 31 63] } : State).script
      = .fbRead 31 63 :: [] := rfl

theorem witness_JumpToItselfIsAFixedPoint :
    let s := ready State.reset 0x1200 idle
    s.mode = .running ∧ s.pc.toNat = (0x200 : Addr12).toNat ∧ s.pc.toNat ≤ 4094 ∧
    s.fetch = some (encode (.jpAddr 0x200)) ∧ s.script = .step idle :: [] := by decide

/-- A state that no run from reset has to reach: deep in the stack, at the end of memory. -/
theorem witness_StepKeepsTheInvariant :
    ∃ s t : State, s.Inv ∧ step s = .next t ∧ s ≠ State.reset ∧ t ≠ s :=
  ⟨{ State.reset with sp := 14, i := 0x0FFF, pc := 0x0FFE, script := [.step idle] }, _,
    ⟨rfl, by decide, by decide, fun k => by simp [State.reset], rfl, fun _ => nofun⟩, rfl,
    by decide, by decide⟩

/-- A Tick of a running machine at 0 and at 1; a Step that writes DT, one that writes ST, one that writes
neither; a byte stored at each end of memory. -/
theorem witness_TimersAreCountersThatOnlyTicksDecrement :
    (next? (step { State.reset with dt := 1, script := [.tick] })).map (fun t => (t.dt, t.st))
      = some (0, 0) ∧
    (next? (step (ready (regs [(0, 3)]) 0xF015 idle))).map (fun t => (t.dt, t.st)) = some (3, 0) ∧
    (next? (step (ready (regs [(0, 3)]) 0xF018 idle))).map (fun t => (t.dt, t.st)) = some (0, 3) ∧
    (next? (step (ready { State.reset with dt := 7, st := 9 } 0x12E4 idle))).map
      (fun t => (t.dt, t.st)) = some (7, 9) ∧
    (State.reset.writeByte 0 1).isSome = true ∧ (State.reset.writeByte 4095 1).isSome = true := by
  decide

end Sys2Proof.Tests
end

section
/-! What one host operation can do, said once: the cases of a Step, of a Load and of a Tick. -/

namespace Sys2Proof.Machine

/-- The six ways a Step goes from `s` to `t` with the given inputs (40_step_engine.md R70 to R76). -/
inductive StepCase (s : State) (input : StepInput) : State → Prop
  | halted (kind : FaultKind) (hm : s.mode = .halted kind) :
    StepCase s input { s.present input with report := .step (.fault kind) }
  | noPress (x : Reg) (hm : s.mode = .awaitingKey x) (hk : input.keyPress = none) :
    StepCase s input { s.present input with report := .step .ok }
  | press (x : Reg) (k : Key) (hm : s.mode = .awaitingKey x) (hk : input.keyPress = some k) :
    StepCase s input { (s.present input).setReg x (BitVec.ofNat 8 k.val) with
      mode := .running, pc := s.pc + 2, report := .step .ok }
  | fetchFault (hm : s.mode = .running) (hpc : 4094 < s.pc.toNat) :
    StepCase s input { s.present input with
      mode := .halted .memoryFault, report := .step (.fault .memoryFault) }
  | unknown (w : Word) (hm : s.mode = .running) (hpc : s.pc.toNat ≤ 4094)
      (hf : s.fetch = some w) (hd : decodeWord w = none) :
    StepCase s input { (s.present input).advance with report := .step (.unknownOpcode w) }
  | executes (w : Word) (i : Instr) (t : State) (hm : s.mode = .running)
      (hpc : s.pc.toNat ≤ 4094) (hf : s.fetch = some w) (hd : decodeWord w = some i)
      (hx : exec i (s.present input) = .next t) : StepCase s input t

/-- A Step that answers went one of the six ways. -/
theorem stepOp_stepCase {s t : State} {input : StepInput} (h : stepOp exec input s = .next t) :
    StepCase s input t := by
  cases hm : s.mode with
  | halted kind =>
    rw [stepOp_halted hm] at h
    cases h
    exact .halted kind hm
  | awaitingKey x =>
    rw [stepOp_awaiting hm] at h
    rcases waitStep_cases x (s.present input) with ⟨hk, hw⟩ | ⟨k, hk, hw⟩
    · cases hw.symm.trans h
      exact .noPress x hm hk
    · cases hw.symm.trans h
      exact .press x k hm hk
  | running =>
    rw [stepOp_running hm] at h
    rcases runningStep_cases exec (s.present input) with
      ⟨hpc, hr⟩ | ⟨w, hpc, hf, ⟨hd, hr⟩ | ⟨i, hd, hr⟩⟩
    · cases hr.symm.trans h
      exact .fetchFault hm hpc
    · cases hr.symm.trans h
      exact .unknown w hm hpc hf hd
    · exact .executes w i t hm hpc hf hd (hr.symm.trans h)

/-- A Load that answers refused the image and wrote nothing, or stored it (R151). -/
theorem loadOp_cases {s t : State} {image : List Byte} (h : loadOp image s = .next t) :
    t = { s with report := .load .loadError } ∨
    (image.length ≤ 3584 ∧ t = { s with
      mem := s.mem.writeAll 0x200 image, report := .load .ok, loadWindow := false }) := by
  unfold loadOp at h
  split at h
  · cases h
  · split at h
    · cases h
      exact .inl rfl
    · rename_i hfit
      cases h
      exact .inr ⟨by simpa [imageFits] using hfit, rfl⟩

/-- A Tick is frozen while halted and else decrements both timers (R141). -/
theorem tickOp_cases (s : State) :
    (s.mode.isHalted = true ∧
      tickOp s = .next { s with report := .tick false, loadWindow := false }) ∨
    (s.mode.isHalted = false ∧ tickOp s = .next { s with
      dt := countDown s.dt, st := countDown s.st, report := .tick (s.st == 1),
      loadWindow := false }) := by
  cases hm : s.mode.isHalted with
  | true => exact .inl ⟨rfl, by rw [tickOp, hm]; rfl⟩
  | false => exact .inr ⟨rfl, by rw [tickOp, hm]; rfl⟩

/-- Counting down is subtraction on naturals, which stays at 0. -/
theorem countDown_toNat (b : Byte) : (countDown b).toNat = b.toNat - 1 := by
  unfold countDown
  split
  · simp [*]
  · bv_omega

end Sys2Proof.Machine
end

section
/-! The invariant of 10_state.md R22, one lemma for each kind of update that keeps it. -/

namespace Sys2Proof.Machine

/-- The reset state has what the invariant asks for: memory lists nothing and the stack holds zeros. -/
theorem State.reset_inv : State.reset.Inv where
  memory := rfl
  index := Nat.zero_le _
  counter := by decide
  slots k := by simp [State.reset]
  base := rfl
  waiting _ := nofun

/-- Settles O58: the reset values of R21 are within the bounds of R22. -/
theorem resetMeetsTheInvariant : Obligations.ResetMeetsTheInvariant := State.reset_inv

/-- The invariant speaks of memory, `I`, the stack, `pc` and a wait: where the first three stay, only `pc`
and the wait are to be shown. -/
theorem State.Inv.of_same {s t : State} (hi : s.Inv) (hmem : t.mem = s.mem) (hidx : t.i = s.i)
    (hstack : t.stack = s.stack) (hpc : t.pc.toNat ≤ 0x10FE)
    (hwait : ∀ x, t.mode = .awaitingKey x → t.pc.toNat ≤ 4094) : t.Inv where
  memory := hmem ▸ hi.memory
  index := hidx ▸ hi.index
  counter := hpc
  slots := hstack ▸ hi.slots
  base := hstack ▸ hi.base
  waiting := hwait

/-- Any move of `pc` within its bound keeps the invariant of a state that is not left waiting. -/
theorem State.Inv.of_same_of_running {s t : State} (hi : s.Inv) (hmem : t.mem = s.mem)
    (hidx : t.i = s.i) (hstack : t.stack = s.stack) (hpc : t.pc.toNat ≤ 0x10FE)
    (hrun : t.mode = .running) : t.Inv :=
  hi.of_same hmem hidx hstack hpc fun _ hw => nomatch hrun.symm.trans hw

theorem State.Inv.setIndex {s : State} (hi : s.Inv) (a : Word) : (s.setIndex a).Inv where
  memory := hi.memory
  index := by rw [setIndex_toNat]; omega
  counter := hi.counter
  slots := hi.slots
  base := hi.base
  waiting := hi.waiting

theorem State.Inv.writeAll {s : State} (hi : s.Inv) {a : Nat} {bs : List Byte}
    (ha : a + bs.length ≤ 4096) : ({ s with mem := s.mem.writeAll a bs } : State).Inv where
  memory := Memory.wf_writeAll hi.memory ha
  index := hi.index
  counter := hi.counter
  slots := hi.slots
  base := hi.base
  waiting := hi.waiting

/-- Slot 0 is the only one that must stay as it is; any other takes an address up to 4096. -/
theorem State.Inv.setSlot {s : State} (hi : s.Inv) {k : Fin 16} (hk : k ≠ 0) {w : Word}
    (hw : w.toNat ≤ 4096) : ({ s with stack := s.stack.set k.val w } : State).Inv where
  memory := hi.memory
  index := hi.index
  counter := hi.counter
  slots j := by
    rw [Vector.getElem_set]
    split
    · exact hw
    · exact hi.slots j
  base := by
    have hne : k.val ≠ 0 := fun h => hk (Fin.ext h)
    rw [Vector.getElem_set_ne _ _ hne]
    exact hi.base
  waiting := hi.waiting

/-- Taking a fault ends every wait and leaves the rest. -/
theorem State.Inv.of_raise {s t : State} (hi : s.Inv) {kind : FaultKind}
    (h : raise kind s = .next t) : t.Inv := by
  cases h
  exact hi.of_same rfl rfl rfl hi.counter fun _ => nofun

/-- An instruction that goes to `u` or raises keeps the invariant if `u` has it. -/
theorem State.Inv.of_ite_raise {s t u : State} (hi : s.Inv) {kind : FaultKind} {c : Prop}
    [Decidable c] (h : (if c then .next u else raise kind s) = .next t) (hu : c → u.Inv) :
    t.Inv := by
  split at h
  · cases h
    exact hu ‹c›
  · exact hi.of_raise h

/-! ### The program counter after an instruction that was fetched -/

theorem toNat_add_two {p : Word} (hp : p.toNat ≤ 4094) : (p + 2).toNat = p.toNat + 2 := by
  bv_omega

theorem advance_pc_le {p : Word} (hp : p.toNat ≤ 4094) : (p + 2).toNat ≤ 0x10FE := by
  rw [toNat_add_two hp]
  omega

theorem skip_pc_le {p : Word} (hp : p.toNat ≤ 4094) (c : Bool) :
    (if c then p + 4 else p + 2).toNat ≤ 0x10FE := by
  split <;> bv_omega

theorem zext16_le (nnn : Addr12) : (zext16 nnn).toNat ≤ 0x10FE := by
  rw [zext16_toNat]
  omega

/-- The farthest jump, `0xFFF + 0xFF`, is where the bound on `pc` comes from (D27). -/
theorem jpV0_target_le (nnn : Addr12) (b : Byte) :
    (zext16 nnn + b.setWidth 16).toNat ≤ 0x10FE := by
  rw [BitVec.toNat_add, zext16_toNat, BitVec.toNat_setWidth]
  omega

/-! ### Every instruction and every operation -/

/-- An instruction that a running machine has fetched keeps the invariant. -/
theorem exec_inv {i : Instr} {s t : State} (hi : s.Inv) (hrun : s.mode = .running)
    (hpc : s.pc.toNat ≤ 4094) (h : exec i s = .next t) : t.Inv := by
  cases i with
  | ret =>
    rw [exec_ret_eq] at h
    split at h
    · exact hi.of_raise h
    · cases h
      have htop : s.stack[s.sp.val].toNat ≤ 0x10FE := (hi.slots s.sp).trans (by decide)
      exact hi.of_same_of_running rfl rfl rfl htop hrun
  | callAddr nnn =>
    rw [exec_callAddr_eq] at h
    split at h
    · exact hi.of_raise h
    · cases h
      have hslot : s.sp + 1 ≠ 0 := by omega
      have hret : (s.pc + 2).toNat ≤ 4096 := by rw [toNat_add_two hpc]; omega
      exact (hi.setSlot hslot hret).of_same_of_running rfl rfl rfl (zext16_le nnn) hrun
  | jpAddr nnn => cases h; exact hi.of_same_of_running rfl rfl rfl (zext16_le nnn) hrun
  | jpV0Addr nnn => cases h; exact hi.of_same_of_running rfl rfl rfl (jpV0_target_le nnn _) hrun
  | seVxKk | sneVxKk | seVxVy | sneVxVy | skpVx | sknpVx =>
    cases h
    exact hi.of_same_of_running rfl rfl rfl (skip_pc_le hpc _) hrun
  | ldIAddr | addIVx | ldFVx =>
    cases h
    exact (hi.setIndex _).of_same_of_running rfl rfl rfl (advance_pc_le hpc) hrun
  | drwVxVyN x y n =>
    rw [exec_drwVxVyN_eq] at h
    exact hi.of_ite_raise h fun _ =>
      hi.of_same_of_running rfl rfl rfl (advance_pc_le hpc) hrun
  | ldBVx x =>
    rw [exec_ldBVx_eq] at h
    refine hi.of_ite_raise h fun hr => ?_
    have hfit : s.base + (bcdDigits (s.reg x)).length ≤ 4096 := by
      rw [bcdDigits_length, State.base]; omega
    exact (hi.writeAll hfit).of_same_of_running rfl rfl rfl (advance_pc_le hpc) hrun
  | ldMemVx x =>
    rw [exec_ldMemVx_eq] at h
    refine hi.of_ite_raise h fun hr => ?_
    have hfit : s.base + (s.regsUpTo x).length ≤ 4096 := by
      rw [State.regsUpTo_length, State.base]; omega
    exact (hi.writeAll hfit).of_same_of_running rfl rfl rfl (advance_pc_le hpc) hrun
  | ldVxMem x =>
    rw [exec_ldVxMem_eq] at h
    exact hi.of_ite_raise h fun _ =>
      hi.of_same_of_running rfl rfl rfl (advance_pc_le hpc) hrun
  | ldVxK x => cases h; exact hi.of_same rfl rfl rfl hi.counter fun _ _ => hpc
  | _ => cases h; exact hi.of_same_of_running rfl rfl rfl (advance_pc_le hpc) hrun

/-- A Step in any mode keeps the invariant; a press advances `pc` from where LD Vx,K was fetched. -/
theorem stepOp_inv {s t : State} {input : StepInput} (hi : s.Inv)
    (h : stepOp exec input s = .next t) : t.Inv := by
  cases stepOp_stepCase h with
  | halted | noPress => exact hi.of_same rfl rfl rfl hi.counter hi.waiting
  | press x k hm hk =>
    exact hi.of_same_of_running rfl rfl rfl (advance_pc_le (hi.waiting x hm)) rfl
  | fetchFault => exact hi.of_same rfl rfl rfl hi.counter fun _ => nofun
  | unknown w hm hpc hf hd =>
    exact hi.of_same_of_running rfl rfl rfl (advance_pc_le hpc) hm
  | executes w i _ hm hpc hf hd hx =>
    have hpresent : (s.present input).Inv := hi.of_same rfl rfl rfl hi.counter hi.waiting
    exact exec_inv hpresent hm hpc hx

/-- Every operation of the host keeps the invariant. -/
theorem runOp_inv {s t : State} {op : HostOp} (hi : s.Inv) (h : runOp exec op s = .next t) :
    t.Inv := by
  cases op with
  | step input => exact stepOp_inv hi h
  | tick =>
    rcases tickOp_cases s with ⟨-, ht⟩ | ⟨-, ht⟩ <;> cases ht.symm.trans h <;>
      exact hi.of_same rfl rfl rfl hi.counter hi.waiting
  | load image =>
    rcases loadOp_cases h with rfl | ⟨hlen, rfl⟩
    · exact hi.of_same rfl rfl rfl hi.counter hi.waiting
    · have hfit : 0x200 + image.length ≤ 4096 := by omega
      exact (hi.writeAll hfit).of_same rfl rfl rfl hi.counter hi.waiting
  | reset =>
    cases h
    exact State.reset_inv.of_same_of_running rfl rfl rfl State.reset_inv.counter rfl
  | fbRead r c =>
    cases h
    exact hi.of_same rfl rfl rfl hi.counter hi.waiting

/-- Settles O59: a step runs one host operation, and each keeps the invariant. -/
theorem stepKeepsTheInvariant : Obligations.StepKeepsTheInvariant := by
  intro s t hi h
  obtain ⟨op, rest, n, hop, -⟩ := step_cases s
  have hi' : ({ s with script := rest, hostCount := n } : State).Inv :=
    hi.of_same rfl rfl rfl hi.counter hi.waiting
  exact runOp_inv hi' (hop.symm.trans h)

end Sys2Proof.Machine
end

section
/-! What an instruction writes, said once for every instruction and every part of the state; the
statements about who may change a component are read off it. -/

namespace Sys2Proof.Machine

/-- The registers an instruction may write: its destination, VF as a side effect, or `V[0]` to `V[x]`
(42_alu.md R90, 43_index_memory.md R110, 44_display.md R117). -/
def WritesReg : Instr → Reg → Prop
  | .ldVxKk x _, r | .addVxKk x _, r | .rndVxKk x _, r | .ldVxVy x _, r | .orVxVy x _, r
  | .andVxVy x _, r | .xorVxVy x _, r | .ldVxDt x, r => r = x
  | .addVxVy x _, r | .subVxVy x _, r | .subnVxVy x _, r | .shrVx x _, r | .shlVx x _, r =>
    r = x ∨ r = 15
  | .drwVxVyN _ _ _, r => r = 15
  | .ldVxMem x, r => r ≤ x
  | _, _ => False

/-- The parts of the state an instruction may change: `pc` and, by a fault or a wait, the mode; each other
part by its writers only (10_state.md R10 to R16). -/
def Writes (i : Instr) : Part → Prop
  | .pc | .mode => True
  | .reg r => WritesReg i r
  | .index => (∃ nnn, i = .ldIAddr nnn) ∨ ∃ x, i = .addIVx x ∨ i = .ldFVx x
  | .sp | .slot _ => i = .ret ∨ ∃ nnn, i = .callAddr nnn
  | .cell _ => ∃ x, i = .ldBVx x ∨ i = .ldMemVx x
  | .pixel _ _ => i = .cls ∨ ∃ x y n, i = .drwVxVyN x y n
  | .dt => ∃ x, i = .ldDtVx x
  | .st => ∃ x, i = .ldStVx x
  | .hostSide => False

/-! ### Frames of updates

Beside those of Laws/Instr.lean: the updates of the other components, each for any set `P` of parts that
contains what the update touches. -/

theorem OnlyChanges.mono {P Q : Part → Prop} {s t : State} (h : OnlyChanges P s t)
    (hPQ : ∀ p, P p → Q p) : OnlyChanges Q s t :=
  fun p hq => h p fun hp => hq (hPQ p hp)

section Frames

variable {P : Part → Prop}

theorem onlyChanges_mode (s : State) (hmode : P .mode) (m : Mode) (r : Report) :
    OnlyChanges P s { s with mode := m, report := r } := by
  intro p hp
  cases p with
  | mode => exact absurd hmode hp
  | hostSide => exact ⟨rfl, rfl, rfl, rfl⟩
  | _ => rfl

theorem onlyChanges_memory (s : State) (hcell : ∀ a, P (.cell a)) (hpc : P .pc) (m : Memory)
    (q : Word) (r : Report) : OnlyChanges P s { s with mem := m, pc := q, report := r } := by
  intro p hp
  cases p with
  | cell a => exact absurd (hcell a) hp
  | pc => exact absurd hpc hp
  | hostSide => exact ⟨rfl, rfl, rfl, rfl⟩
  | _ => rfl

theorem onlyChanges_stack (s : State) (hsp : P .sp) (hslot : ∀ k, P (.slot k)) (hpc : P .pc)
    (k : Fin 16) (stack : Vector Word 16) (q : Word) (r : Report) :
    OnlyChanges P s { s with sp := k, stack := stack, pc := q, report := r } := by
  intro p hp
  cases p with
  | sp => exact absurd hsp hp
  | slot k => exact absurd (hslot k) hp
  | pc => exact absurd hpc hp
  | hostSide => exact ⟨rfl, rfl, rfl, rfl⟩
  | _ => rfl

theorem onlyChanges_timers (s : State) {d e : Byte} (hdt : ¬P .dt → d = s.dt)
    (hst : ¬P .st → e = s.st) (hpc : P .pc) (q : Word) (r : Report) :
    OnlyChanges P s { s with dt := d, st := e, pc := q, report := r } := by
  intro p hp
  cases p with
  | dt => exact hdt hp
  | st => exact hst hp
  | pc => exact absurd hpc hp
  | hostSide => exact ⟨rfl, rfl, rfl, rfl⟩
  | _ => rfl

theorem onlyChanges_display_regs (s : State) {fb : Rows} {v : Vector Byte 16}
    (hfb : ∀ r c, ¬P (.pixel r c) → fb = s.fb) (hv : ∀ x, ¬P (.reg x) → v[x.val] = s.reg x)
    (hpc : P .pc) (q : Word) (r : Report) :
    OnlyChanges P s { s with fb := fb, v := v, pc := q, report := r } := by
  intro p hp
  cases p with
  | reg x => exact hv x hp
  | pixel r c => exact congrArg (fun rows => rows[r.val].getLsbD c.val) (hfb r c hp)
  | pc => exact absurd hpc hp
  | hostSide => exact ⟨rfl, rfl, rfl, rfl⟩
  | _ => rfl

/-- An instruction that goes to `u` or takes a fault: its frame is the one to `u`. -/
theorem onlyChanges_ite_raise {s t u : State} {kind : FaultKind} {c : Prop} [Decidable c]
    (h : (if c then .next u else raise kind s) = .next t) (hmode : P .mode)
    (hu : OnlyChanges P s u) : OnlyChanges P s t := by
  split at h
  · cases h
    exact hu
  · cases h
    exact onlyChanges_mode s hmode _ _

end Frames

/-! ### The frame of every instruction -/

theorem writes_of_pc (i : Instr) (p : Part) (h : p = .pc) : Writes i p := by
  subst h
  trivial

theorem writes_of_reg_or_pc {i : Instr} {x : Reg} (hx : WritesReg i x) (p : Part)
    (h : p = .reg x ∨ p = .pc) : Writes i p := by
  rcases h with rfl | rfl
  · exact hx
  · trivial

theorem writes_of_reg_or_flag_or_pc {i : Instr} {x : Reg} (hx : WritesReg i x)
    (hf : WritesReg i 15) (p : Part) (h : p = .reg x ∨ p = .reg 15 ∨ p = .pc) : Writes i p := by
  rcases h with rfl | rfl | rfl
  · exact hx
  · exact hf
  · trivial

theorem writes_of_index_or_pc {i : Instr} (hi : Writes i .index) (p : Part)
    (h : p = .index ∨ p = .pc) : Writes i p := by
  rcases h with rfl | rfl
  · exact hi
  · trivial

/-- Whatever an instruction answers, it changed only parts that are its own to write. -/
theorem exec_onlyChanges {i : Instr} {s t : State} (h : exec i s = .next t) :
    OnlyChanges (Writes i) s t := by
  cases i with
  | ldVxKk | addVxKk | rndVxKk | ldVxVy | orVxVy | andVxVy | xorVxVy | ldVxDt =>
    cases h
    exact (frame_setReg s _ _ _ _).mono (writes_of_reg_or_pc rfl)
  | addVxVy | subVxVy | subnVxVy | shrVx | shlVx =>
    cases h
    exact (frame_setResultAndFlag s _ _ _ _ _).mono
      (writes_of_reg_or_flag_or_pc (.inl rfl) (.inr rfl))
  | jpAddr | jpV0Addr | seVxKk | sneVxKk | seVxVy | sneVxVy | skpVx | sknpVx =>
    cases h
    exact (frame_pc s _ _).mono (writes_of_pc _)
  | ldIAddr nnn =>
    cases h
    exact (frame_setIndex s _ _ _).mono (writes_of_index_or_pc (.inl ⟨nnn, rfl⟩))
  | addIVx x =>
    cases h
    exact (frame_setIndex s _ _ _).mono (writes_of_index_or_pc (.inr ⟨x, .inl rfl⟩))
  | ldFVx x =>
    cases h
    exact (frame_setIndex s _ _ _).mono (writes_of_index_or_pc (.inr ⟨x, .inr rfl⟩))
  | ret =>
    rw [exec_ret_eq] at h
    split at h <;> cases h
    · exact onlyChanges_mode s trivial _ _
    · exact onlyChanges_stack s (.inl rfl) (fun _ => .inl rfl) trivial _ _ _ _
  | callAddr nnn =>
    rw [exec_callAddr_eq] at h
    split at h <;> cases h
    · exact onlyChanges_mode s trivial _ _
    · exact onlyChanges_stack s (.inr ⟨nnn, rfl⟩) (fun _ => .inr ⟨nnn, rfl⟩) trivial _ _ _ _
  | cls =>
    cases h
    exact onlyChanges_display_regs s (fun _ _ hp => absurd (.inl rfl) hp) (fun _ _ => rfl)
      trivial _ _
  | drwVxVyN x y n =>
    rw [exec_drwVxVyN_eq] at h
    refine onlyChanges_ite_raise h trivial (onlyChanges_display_regs s
      (fun _ _ hp => absurd (.inr ⟨x, y, n, rfl⟩) hp) (fun z hz => ?_) trivial _ _)
    exact (State.reg_setReg s 15 z _).trans (if_neg fun h15 => hz h15.symm)
  | ldVxMem x =>
    rw [exec_ldVxMem_eq] at h
    exact onlyChanges_ite_raise h trivial (onlyChanges_display_regs s (fun _ _ _ => rfl)
      (fun z hz => (reg_ldVxMem x z s).trans (if_neg hz)) trivial _ _)
  | ldBVx x =>
    rw [exec_ldBVx_eq] at h
    exact onlyChanges_ite_raise h trivial
      (onlyChanges_memory s (fun _ => ⟨x, .inl rfl⟩) trivial _ _ _)
  | ldMemVx x =>
    rw [exec_ldMemVx_eq] at h
    exact onlyChanges_ite_raise h trivial
      (onlyChanges_memory s (fun _ => ⟨x, .inr rfl⟩) trivial _ _ _)
  | ldVxK x =>
    cases h
    exact onlyChanges_mode s trivial _ _
  | ldDtVx x =>
    cases h
    exact onlyChanges_timers s (fun hp => absurd ⟨x, rfl⟩ hp) (fun _ => rfl) trivial _ _
  | ldStVx x =>
    cases h
    exact onlyChanges_timers s (fun _ => rfl) (fun hp => absurd ⟨x, rfl⟩ hp) trivial _ _

/-! ### The statements about writers -/

/-- Settles O41: each clause is the frame at its part, and its premise says that the instruction is none of
the part's writers. -/
theorem eachComponentHasOnlyItsWriters : Obligations.EachComponentHasOnlyItsWriters := by
  intro i s t h
  have hframe := exec_onlyChanges h
  refine ⟨fun hld hadd => hframe .index ?_, fun hret hcall => ⟨hframe .sp ?_, ?_⟩,
    fun hstore a => hframe (.cell a) ?_, fun hcls hdrw r c => hframe (.pixel r c) ?_,
    fun hdt => hframe .dt ?_, fun hst => hframe .st ?_⟩
  · simp [Writes, hld, hadd]
  · simp [Writes, hret, hcall]
  · exact Vector.ext fun k hk => hframe (.slot ⟨k, hk⟩) (by simp [Writes, hret, hcall])
  · simp [Writes, hstore]
  · simp [Writes, hcls, hdrw]
  · simp [Writes, hdt]
  · simp [Writes, hst]

/-- Settles O34: the frame at VF; the premises leave no instruction that may write it. -/
theorem onlySixInstructionsWriteTheFlagAside :
    Obligations.OnlySixInstructionsWriteTheFlagAside := by
  intro i s t h hflag hdrw hkk hvy hdt hmem
  refine exec_onlyChanges h (.reg 15) fun hw => ?_
  change WritesReg i 15 at hw
  cases i with
  | addVxVy x y | subVxVy x y | subnVxVy x y | shrVx x y | shlVx x y => simpa using hflag x y
  | drwVxVyN x y n => exact hdrw x y n rfl
  | ldVxKk x kk | addVxKk x kk | rndVxKk x kk =>
    cases (hw : 15 = x)
    simpa using hkk kk
  | ldVxVy x y | orVxVy x y | andVxVy x y | xorVxVy x y =>
    cases (hw : 15 = x)
    simpa using hvy y
  | ldVxDt x => exact hdt (congrArg Instr.ldVxDt hw.symm)
  | ldVxMem x => exact hmem (congrArg Instr.ldVxMem (Fin.last_le_iff.mp hw))
  | _ => exact hw

end Sys2Proof.Machine
end

section
/-! The mode: which operation may change it, and how. -/

namespace Sys2Proof.Machine

/-- An instruction executed in the running mode leaves a wait for `x` only if it is LD Vx,K. -/
theorem exec_awaiting {i : Instr} {s t : State} {x : Reg} (h : exec i s = .next t)
    (hrun : s.mode = .running) (hw : t.mode = .awaitingKey x) : i = .ldVxK x := by
  rcases exec_mode h with hm | ⟨y, rfl, rfl⟩ | ⟨kind, hr⟩
  · exact nomatch hrun.symm.trans (hm.symm.trans hw)
  · cases hw
    rfl
  · cases hr.symm.trans h
    exact nomatch hw

/-- A Step leaves a halted machine halted (R71). -/
theorem stepOp_mode_halted {s t : State} {input : StepInput} {kind : FaultKind}
    (h : stepOp exec input s = .next t) (hm : s.mode = .halted kind) : t.mode = .halted kind := by
  rw [stepOp_halted hm] at h
  cases h
  exact hm

/-- A Step leaves a waiting machine waiting unless a key is pressed (R72). -/
theorem stepOp_mode_awaiting {s t : State} {input : StepInput} {x : Reg}
    (h : stepOp exec input s = .next t) (hm : s.mode = .awaitingKey x) :
    t.mode = .awaitingKey x ∨ (t.mode = .running ∧ ∃ k, input.keyPress = some k) := by
  rw [stepOp_awaiting hm] at h
  rcases waitStep_cases x (s.present input) with ⟨-, hw⟩ | ⟨k, hk, hw⟩
  · cases hw.symm.trans h
    exact .inl hm
  · cases hw.symm.trans h
    exact .inr ⟨rfl, k, hk⟩

/-- A Step makes a running machine wait only by executing LD Vx,K (R123). -/
theorem stepOp_starts_wait {s t : State} {input : StepInput} {x : Reg}
    (h : stepOp exec input s = .next t) (hrun : s.mode = .running) (hw : t.mode = .awaitingKey x) :
    ∃ w, s.fetch = some w ∧ decodeWord w = some (.ldVxK x) := by
  cases stepOp_stepCase h with
  | halted kind hm => exact nomatch hrun.symm.trans hm
  | noPress y hm => exact nomatch hrun.symm.trans hm
  | press | fetchFault => exact nomatch hw
  | unknown => exact nomatch hrun.symm.trans hw
  | executes w i _ _ _ hf hd hx => exact ⟨w, hf, exec_awaiting hx hrun hw ▸ hd⟩

/-- The operations beside Step and Reset do not touch the mode (R139, R141). -/
theorem runOp_mode {s t : State} {op : HostOp} (h : runOp exec op s = .next t)
    (hstep : ∀ input, op ≠ .step input) (hreset : op ≠ .reset) : t.mode = s.mode := by
  cases op with
  | step input => exact absurd rfl (hstep input)
  | reset => exact absurd rfl hreset
  | tick => rcases tickOp_cases s with ⟨-, ht⟩ | ⟨-, ht⟩ <;> cases ht.symm.trans h <;> rfl
  | load image => rcases loadOp_cases h with rfl | ⟨-, rfl⟩ <;> rfl
  | fbRead r c => cases h; rfl

/-- Settles O14: a Step by what it does in each mode; the other operations but Reset leave the mode as it
is. -/
theorem modeChangesAreTheListedOnes : Obligations.ModeChangesAreTheListedOnes := by
  intro s t op rest hscript h
  rw [step_of_script hscript] at h
  refine ⟨?reset, fun hreset => ?_⟩
  case reset =>
    rintro rfl
    cases h
    rfl
  by_cases hstep : ∃ input, op = .step input
  · obtain ⟨input, rfl⟩ := hstep
    refine ⟨fun kind hm => stepOp_mode_halted h hm, fun x hm => ?_, fun hm x hw => ?_,
      fun _ _ _ => ⟨input, rfl⟩⟩
    · exact (stepOp_mode_awaiting h hm).imp_right fun ⟨ht, k, hk⟩ => ⟨ht, input, k, rfl, hk⟩
    · obtain ⟨w, hf, hd⟩ := stepOp_starts_wait h hm hw
      exact ⟨input, w, rfl, hf, hd⟩
  · have hmode := runOp_mode h (fun input he => hstep ⟨input, he⟩) hreset
    change t.mode = s.mode at hmode
    rw [hmode]
    refine ⟨fun kind hm => hm, fun x hm => .inl hm, fun hm x hw => ?_, fun hm kind hw => ?_⟩
    · exact nomatch hm.symm.trans hw
    · exact nomatch hm.symm.trans hw

end Sys2Proof.Machine
end

section
/-! Reset (10_state.md R21, 70_reset_and_hazards.md R150). -/

namespace Sys2Proof.Machine

/-- Outside the font region memory holds zeros after Reset. -/
theorem resetByte_outside_font {a : Nat} (h : a < 0x050 ∨ 0x09F < a) : resetByte a = 0x00 := by
  unfold resetByte fontBase
  rw [if_neg (by omega)]

/-- In the font region the 16 glyphs stand one after another, five bytes each (R32). -/
theorem resetByte_glyph {d j : Nat} (hd : d < 16) (hj : j < 5) :
    resetByte (0x050 + 5 * d + j) = glyphByte d j := by
  unfold resetByte fontBase
  rw [if_pos (by omega), show (0x050 + 5 * d + j - 0x050) / 5 = d by omega,
    show (0x050 + 5 * d + j - 0x050) % 5 = j by omega]

/-- Settles O55: Reset answers the reset state with the script going on, and each component is read off. -/
theorem resetPutsEveryComponentAtItsResetValue :
    Obligations.ResetPutsEveryComponentAtItsResetValue := by
  intro s rest hscript
  refine ⟨{ State.reset with script := rest, hostCount := s.hostCount }, step_of_script hscript,
    fun x => Vector.getElem_replicate _, rfl, rfl, rfl, fun k => Vector.getElem_replicate _,
    rfl, rfl, fun r c => ?pixel, rfl, fun a ha hfont => ?zero, fun d j hd hj => ?glyph,
    fun a ha => ?above⟩
  case pixel => simp [State.pixel, State.reset]
  case zero =>
    rw [State.readByte_eq, if_pos ha]
    exact congrArg some (resetByte_outside_font hfont)
  case glyph =>
    rw [State.readByte_eq, if_pos (by omega)]
    exact congrArg some (resetByte_glyph hd hj)
  case above => rw [State.readByte_eq, if_neg (by omega)]

end Sys2Proof.Machine
end

section
/-! The timers: no instruction but their readers and writers has to do with them, and only a Tick
counts them down (10_state.md R15). -/

namespace Sys2Proof.Machine

/-- The state with other timers. -/
def State.withTimers (s : State) (d e : Byte) : State := { s with dt := d, st := e }

/-- A map of the state applied to both ways an instruction may go is applied to where it went. -/
theorem next_ite_map {c : Prop} [Decidable c] {a b t : State} (f : State → State)
    (h : (if c then .next a else .next b : Result) = .next t) :
    (if c then .next (f a) else .next (f b) : Result) = .next (f t) := by
  split at h
  · rw [if_pos ‹c›]; cases h; rfl
  · rw [if_neg ‹¬c›]; cases h; rfl

/-- The instructions that neither read nor write a timer carry any timers along. -/
theorem exec_withTimers {i : Instr} {s t : State} (h : exec i s = .next t) (d e : Byte)
    (hread : ∀ x, i ≠ .ldVxDt x) (hdt : ∀ x, i ≠ .ldDtVx x) (hst : ∀ x, i ≠ .ldStVx x) :
    exec i (s.withTimers d e) = .next (t.withTimers d e) := by
  cases i with
  | ldVxDt x => exact absurd rfl (hread x)
  | ldDtVx x => exact absurd rfl (hdt x)
  | ldStVx x => exact absurd rfl (hst x)
  | ret => exact next_ite_map (·.withTimers d e) h
  | callAddr nnn => exact next_ite_map (·.withTimers d e) h
  | drwVxVyN x y n =>
    rw [exec_drwVxVyN_eq] at h ⊢
    exact next_ite_map (·.withTimers d e) h
  | ldBVx x =>
    rw [exec_ldBVx_eq] at h ⊢
    exact next_ite_map (·.withTimers d e) h
  | ldMemVx x =>
    rw [exec_ldMemVx_eq] at h ⊢
    exact next_ite_map (·.withTimers d e) h
  | ldVxMem x =>
    rw [exec_ldVxMem_eq] at h ⊢
    rw [State.setRegsFrom_v_congr (s := s) (t := s.withTimers d e) _ _ rfl]
    exact next_ite_map (·.withTimers d e) h
  | _ => cases h; rfl

/-- An instruction that does not write ST carries any ST along: none reads it. -/
theorem exec_withSt {i : Instr} {s t : State} (h : exec i s = .next t) (e : Byte)
    (hst : ∀ x, i ≠ .ldStVx x) : exec i { s with st := e } = .next { t with st := e } := by
  by_cases hi : ∃ x, i = .ldVxDt x ∨ i = .ldDtVx x
  · obtain ⟨x, rfl | rfl⟩ := hi <;> cases h <;> rfl
  · simp only [not_exists, not_or] at hi
    have hdt : t.dt = s.dt := exec_onlyChanges h .dt fun ⟨x, hx⟩ => (hi x).2 hx
    have ht : t.withTimers s.dt e = { t with st := e } := by rw [State.withTimers, ← hdt]
    exact ht ▸ exec_withTimers h s.dt e (fun x => (hi x).1) (fun x => (hi x).2) hst

/-- An instruction that neither reads nor writes DT carries any DT along. -/
theorem exec_withDt {i : Instr} {s t : State} (h : exec i s = .next t) (d : Byte)
    (hread : ∀ x, i ≠ .ldVxDt x) (hdt : ∀ x, i ≠ .ldDtVx x) :
    exec i { s with dt := d } = .next { t with dt := d } := by
  by_cases hi : ∃ x, i = .ldStVx x
  · obtain ⟨x, rfl⟩ := hi
    cases h
    rfl
  · have hst : t.st = s.st := exec_onlyChanges h .st hi
    have ht : t.withTimers d s.st = { t with dt := d } := by rw [State.withTimers, ← hst]
    exact ht ▸ exec_withTimers h d s.st hread hdt fun x he => hi ⟨x, he⟩

/-- Settles O49: the carrying along of ST and of DT, and for their two writers the model's equation. -/
theorem timersAreReadOnlyByTheirReader : Obligations.TimersAreReadOnlyByTheirReader := by
  intro i s t v w h
  refine ⟨exec_withSt h v, ?_, fun hi => exec_withDt h w (fun x => (hi x).1) fun x => (hi x).2, ?_⟩
  · rintro x rfl
    cases h
    rfl
  · rintro x rfl
    cases h
    rfl

/-! ### Who changes a timer -/

/-- An instruction leaves DT unless it is LD DT,Vx, which makes it `V[x]`. -/
theorem exec_dt {i : Instr} {s t : State} (h : exec i s = .next t) :
    t.dt = s.dt ∨ ∃ x, i = .ldDtVx x ∧ t.dt = s.reg x := by
  by_cases hi : ∃ x, i = .ldDtVx x
  · obtain ⟨x, rfl⟩ := hi
    cases h
    exact .inr ⟨x, rfl, rfl⟩
  · exact .inl (exec_onlyChanges h .dt hi)

/-- An instruction leaves ST unless it is LD ST,Vx, which makes it `V[x]`. -/
theorem exec_st {i : Instr} {s t : State} (h : exec i s = .next t) :
    t.st = s.st ∨ ∃ x, i = .ldStVx x ∧ t.st = s.reg x := by
  by_cases hi : ∃ x, i = .ldStVx x
  · obtain ⟨x, rfl⟩ := hi
    cases h
    exact .inr ⟨x, rfl, rfl⟩
  · exact .inl (exec_onlyChanges h .st hi)

/-- An operation beside Tick and Reset leaves the timers or is a Step that executes an instruction. -/
theorem runOp_timers {s t : State} {op : HostOp} (h : runOp exec op s = .next t)
    (htick : op ≠ .tick) (hreset : op ≠ .reset) :
    (t.dt = s.dt ∧ t.st = s.st) ∨ ∃ input w i, op = .step input ∧ s.mode = .running ∧
      s.fetch = some w ∧ decodeWord w = some i ∧ exec i (s.present input) = .next t := by
  cases op with
  | tick => exact absurd rfl htick
  | reset => exact absurd rfl hreset
  | load image => rcases loadOp_cases h with rfl | ⟨-, rfl⟩ <;> exact .inl ⟨rfl, rfl⟩
  | fbRead r c =>
    cases h
    exact .inl ⟨rfl, rfl⟩
  | step input =>
    cases stepOp_stepCase h with
    | executes w i _ hm hpc hf hd hx => exact .inr ⟨input, w, i, rfl, hm, hf, hd, hx⟩
    | _ => exact .inl ⟨rfl, rfl⟩

/-- Storing a byte leaves the timers: they are not memory-mapped. -/
theorem writeByte_timers {s t : State} {a : Nat} {b : Byte} (h : s.writeByte a b = some t) :
    t.dt = s.dt ∧ t.st = s.st := by
  rw [State.writeByte_eq] at h
  split at h
  · cases h
    exact ⟨rfl, rfl⟩
  · cases h

/-- Settles O60: the readers and writers by their meaning, the rest from the lemmas above. -/
theorem timersAreCountersThatOnlyTicksDecrement :
    Obligations.TimersAreCountersThatOnlyTicksDecrement := by
  refine ⟨fun x s => ⟨⟨_, ⟨rfl, rfl⟩, ?_⟩, ⟨_, ⟨rfl, rfl⟩, rfl⟩, ⟨_, ⟨rfl, rfl⟩, rfl⟩⟩,
    fun i s t v h => ?st, fun s rest hscript hrun => ?tick,
    fun s t op rest hscript htick hreset h => ?others,
    fun s t v w a b => ⟨rfl, writeByte_timers⟩⟩
  · exact (State.reg_setReg s x x s.dt).trans (if_pos rfl)
  case st =>
    by_cases hi : ∃ x, i = .ldStVx x
    · obtain ⟨x, rfl⟩ := hi
      cases h
      exact ⟨s.reg x, rfl⟩
    · exact ⟨v, exec_withSt h v fun x he => hi ⟨x, he⟩⟩
  case tick =>
    rw [step_of_script hscript]
    rcases tickOp_cases { s with script := rest } with ⟨hm, -⟩ | ⟨-, ht⟩
    · rw [hrun] at hm
      cases hm
    · exact ⟨_, ht, countDown_toNat _, countDown_toNat _⟩
  case others =>
    rw [step_of_script hscript] at h
    rcases runOp_timers h htick hreset with ⟨hdt, hst⟩ | ⟨input, w, i, hop, hm, hf, hd, hx⟩
    · exact ⟨.inl hdt, .inl hst⟩
    · refine ⟨(exec_dt hx).imp_right ?_, (exec_st hx).imp_right ?_⟩
      · rintro ⟨x, rfl, hdt⟩
        exact ⟨input, w, x, hop, hm, hf, hd, hdt⟩
      · rintro ⟨x, rfl, hst⟩
        exact ⟨input, w, x, hop, hm, hf, hd, hst⟩

end Sys2Proof.Machine
end

section
/-! The fetch (20_memory.md R35, R73), and what a block store leaves for it (R41, R109). -/

namespace Sys2Proof.Machine

/-- The byte at the lower address is bits 15 to 8 of the word (R35). -/
theorem wordOfBytes_toNat (hi lo : Byte) :
    (wordOfBytes hi lo).toNat = 256 * hi.toNat + lo.toNat := by
  rw [wordOfBytes, BitVec.toNat_append, ← Nat.shiftLeft_add_eq_or_of_lt lo.isLt, Nat.shiftLeft_eq,
    Nat.mul_comm]

/-- The fetched word is made of the two bytes that reading at `pc` and `pc + 1` answers. -/
theorem State.fetch_of_readByte {s : State} {hi lo : Byte} (hhi : s.readByte s.pc.toNat = some hi)
    (hlo : s.readByte (s.pc.toNat + 1) = some lo) : s.fetch = some (wordOfBytes hi lo) := by
  rw [State.readByte_eq, Option.ite_none_right_eq_some, Option.some_inj] at hhi hlo
  obtain ⟨-, rfl⟩ := hhi
  obtain ⟨hpc, rfl⟩ := hlo
  rw [State.fetch_eq, if_pos (by omega)]

/-- Settles O12: up to 4094 both bytes are in memory and make the word; above, the fetch answers none. -/
theorem fetchIsBigEndianAtAnyAddress : Obligations.FetchIsBigEndianAtAnyAddress := by
  refine fun s => ⟨fun hpc => ?_, fun hpc => ?_⟩
  · have hhi : s.readByte s.pc.toNat = some (s.mem.read s.pc.toNat) := by
      rw [State.readByte_eq, if_pos (by omega)]
    have hlo : s.readByte (s.pc.toNat + 1) = some (s.mem.read (s.pc.toNat + 1)) := by
      rw [State.readByte_eq, if_pos (by omega)]
    exact ⟨_, _, _, State.fetch_of_readByte hhi hlo, hhi, hlo, wordOfBytes_toNat _ _⟩
  · rw [State.fetch_eq, if_neg (by omega)]

/-- LD [I],Vx completes exactly when its last byte is in memory, and then stores `V[0]` to `V[x]`. -/
theorem completes_ldMemVx_iff {x : Reg} {s t : State} : Completes (.ldMemVx x) s t ↔
    s.i.toNat + x.val ≤ 4095 ∧ t = { s with
      mem := s.mem.writeAll s.base (s.regsUpTo x), pc := s.pc + 2, report := .step .ok } := by
  rw [Completes, exec_ldMemVx_eq]
  by_cases hfit : s.i.toNat + x.val ≤ 4095
  · rw [if_pos hfit]
    constructor
    · rintro ⟨ht, -⟩
      cases ht
      exact ⟨hfit, rfl⟩
    · rintro ⟨-, rfl⟩
      exact ⟨rfl, rfl⟩
  · rw [if_neg hfit]
    constructor
    · rintro ⟨ht, hok⟩
      cases ht
      cases hok
    · rintro ⟨hfit', -⟩
      exact absurd hfit' hfit

/-- After LD [I],Vx the byte at `I + k` is `V[k]`, for each `k` up to `x` (R109). -/
theorem readByte_of_completes_ldMemVx {x : Reg} {s t : State} {k : Nat} (hwf : s.mem.wf = true)
    (h : Completes (.ldMemVx x) s t) (hk : k ≤ x.val) :
    t.readByte (s.i.toNat + k) = some (s.reg (Fin.ofNat 16 k)) := by
  obtain ⟨hfit, rfl⟩ := completes_ldMemVx_iff.mp h
  have hlen := s.regsUpTo_length x
  have hrange : s.base + (s.regsUpTo x).length ≤ 4096 := by
    rw [hlen, State.base]
    omega
  have hin : s.base ≤ s.i.toNat + k ∧ s.i.toNat + k < s.base + (s.regsUpTo x).length := by
    rw [hlen, State.base]
    omega
  rw [State.readByte_eq, if_pos (by omega), Memory.read_writeAll hwf hrange, if_pos hin, State.base,
    Nat.add_sub_cancel_left, State.regsUpTo_getD s x k hk]

/-- Settles O40: the two bytes at `pc` are the stored registers `V[k]` and `V[k + 1]`. -/
theorem storeIsSeenByTheNextFetch : Obligations.StoreIsSeenByTheNextFetch := by
  intro x s t k hwf h hk hpc
  apply State.fetch_of_readByte
  · rw [hpc]
    exact readByte_of_completes_ldMemVx hwf h (by omega)
  · rw [hpc, Nat.add_assoc]
    exact readByte_of_completes_ldMemVx hwf h hk

end Sys2Proof.Machine
end

section
/-! The fields of R51 and the formats of R52: a format word has the fields it was made of, and a word is
the format word of its fields. -/

namespace Sys2Proof

@[simp] theorem fieldC_formatA (c : BitVec 4) (nnn : Addr12) : fieldC (formatA c nnn) = c :=
  BitVec.extractLsb'_append_eq_left

@[simp] theorem fieldNNN_formatA (c : BitVec 4) (nnn : Addr12) : fieldNNN (formatA c nnn) = nnn :=
  BitVec.extractLsb'_append_eq_right

@[simp] theorem fieldC_formatXK (c : BitVec 4) (x : Reg) (kk : Byte) :
    fieldC (formatXK c x kk) = c :=
  fieldC_formatA c _

@[simp] theorem fieldX_formatXK (c : BitVec 4) (x : Reg) (kk : Byte) :
    fieldX (formatXK c x kk) = x := by
  rw [fieldX, formatXK, BitVec.extractLsb'_append_eq_of_add_le (by decide),
    BitVec.extractLsb'_append_eq_left]

@[simp] theorem fieldKK_formatXK (c : BitVec 4) (x : Reg) (kk : Byte) :
    fieldKK (formatXK c x kk) = kk := by
  rw [fieldKK, formatXK, BitVec.extractLsb'_append_eq_of_add_le (by decide),
    BitVec.extractLsb'_append_eq_right]

@[simp] theorem fieldC_formatXYN (c : BitVec 4) (x y : Reg) (n : BitVec 4) :
    fieldC (formatXYN c x y n) = c :=
  fieldC_formatA c _

@[simp] theorem fieldX_formatXYN (c : BitVec 4) (x y : Reg) (n : BitVec 4) :
    fieldX (formatXYN c x y n) = x :=
  fieldX_formatXK c x _

@[simp] theorem fieldY_formatXYN (c : BitVec 4) (x y : Reg) (n : BitVec 4) :
    fieldY (formatXYN c x y n) = y := by
  rw [fieldY, formatXYN, BitVec.extractLsb'_append_eq_of_add_le (by decide),
    BitVec.extractLsb'_append_eq_of_add_le (by decide), BitVec.extractLsb'_append_eq_left]

@[simp] theorem fieldN_formatXYN (c : BitVec 4) (x y : Reg) (n : BitVec 4) :
    fieldN (formatXYN c x y n) = n := by
  rw [fieldN, formatXYN, BitVec.extractLsb'_append_eq_of_add_le (by decide),
    BitVec.extractLsb'_append_eq_of_add_le (by decide), BitVec.extractLsb'_append_eq_right]

/-- Every word is a format A word. -/
theorem formatA_fields (op : Word) : formatA (fieldC op) (fieldNNN op) = op :=
  BitVec.extractLsb'_append_extractLsb' (len := 12)

/-- Every word is a format XK word. -/
theorem formatXK_fields (op : Word) : formatXK (fieldC op) (fieldX op) (fieldKK op) = op := by
  have hnnn : op.extractLsb' 8 4 ++ op.extractLsb' 0 8 = fieldNNN op :=
    BitVec.extractLsb'_append_extractLsb'_eq_extractLsb' rfl
  exact (congrArg (formatA (fieldC op)) hnnn).trans (formatA_fields op)

/-- Every word is a format XYN word. -/
theorem formatXYN_fields (op : Word) :
    formatXYN (fieldC op) (fieldX op) (fieldY op) (fieldN op) = op := by
  have hkk : op.extractLsb' 4 4 ++ op.extractLsb' 0 4 = fieldKK op :=
    BitVec.extractLsb'_append_extractLsb'_eq_extractLsb' rfl
  exact (congrArg (formatXK (fieldC op) (fieldX op)) hkk).trans (formatXK_fields op)

/-- A format A word is told by its two fields. -/
theorem formatA_eq_iff {c : BitVec 4} {nnn : Addr12} {op : Word} :
    formatA c nnn = op ↔ fieldC op = c ∧ fieldNNN op = nnn := by
  constructor
  · rintro rfl
    simp
  · rintro ⟨rfl, rfl⟩
    exact formatA_fields op

/-- A format XK word is told by its three fields. -/
theorem formatXK_eq_iff {c : BitVec 4} {x : Reg} {kk : Byte} {op : Word} :
    formatXK c x kk = op ↔ fieldC op = c ∧ fieldX op = x ∧ fieldKK op = kk := by
  constructor
  · rintro rfl
    simp
  · rintro ⟨rfl, rfl, rfl⟩
    exact formatXK_fields op

/-- A format XYN word is told by its four fields. -/
theorem formatXYN_eq_iff {c : BitVec 4} {x y : Reg} {n : BitVec 4} {op : Word} :
    formatXYN c x y n = op ↔ fieldC op = c ∧ fieldX op = x ∧ fieldY op = y ∧ fieldN op = n := by
  constructor
  · rintro rfl
    simp
  · rintro ⟨rfl, rfl, rfl, rfl⟩
    exact formatXYN_fields op

end Sys2Proof
end

section
/-! The decoder of R54 and the encoder undo each other. -/

namespace Sys2Proof

/-- The two bytes of a word make the word again (R35). -/
theorem wordOfBytes_bytesOfWord (op : Word) :
    wordOfBytes (op.extractLsb' 8 8) (op.extractLsb' 0 8) = op :=
  BitVec.extractLsb'_append_extractLsb' (len := 8)

/-- A word that decodes is decoded from its two bytes, whatever follows them (R50). -/
theorem decode_bytesOfWord_append {op : Word} {i : Instr} (h : decodeWord op = some i)
    (rest : List Byte) : decode (bytesOfWord op ++ rest) = .ok (i, rest) := by
  rw [bytesOfWord, List.cons_append, List.cons_append, List.nil_append, decode,
    wordOfBytes_bytesOfWord, h]

/-- The decision tree finds an instruction from its own word: the format's fields lead to its branch. -/
theorem decodeWord_encode (i : Instr) : decodeWord (encode i) = some i := by
  cases i with
  | cls | ret => rfl
  | jpAddr | callAddr | ldIAddr | jpV0Addr => simp [encode, decodeWord]
  | seVxKk | sneVxKk | ldVxKk | addVxKk | rndVxKk | skpVx | sknpVx => simp [encode, decodeWord]
  | seVxVy | sneVxVy | drwVxVyN => simp [encode, decodeWord]
  | ldVxVy | orVxVy | andVxVy | xorVxVy | addVxVy | subVxVy | subnVxVy | shrVx | shlVx =>
    simp [encode, decodeWord, decodeClass8]
  | ldVxDt | ldVxK | ldDtVx | ldStVx | addIVx | ldFVx | ldBVx | ldMemVx | ldVxMem =>
    simp [encode, decodeWord, decodeClassF]

/-- Settles O2: the encoded word leads to its own branch of the decision tree, and its bytes make it. -/
theorem decodeOfEncodeIsTheInstruction : Obligations.DecodeOfEncodeIsTheInstruction :=
  fun i rest => ⟨decodeWord_encode i, decode_bytesOfWord_append (decodeWord_encode i) rest⟩

/-- In class 8 the matched low nibble is the last field of format XYN. -/
theorem encode_of_decodeClass8 {op : Word} {i : Instr} (hC : fieldC op = 0x8)
    (h : decodeClass8 op = some i) : encode i = op := by
  unfold decodeClass8 at h
  split at h <;> cases h <;> exact formatXYN_eq_iff.mpr ⟨hC, rfl, rfl, ‹_›⟩

/-- In class F the matched low byte is the last field of format XK. -/
theorem encode_of_decodeClassF {op : Word} {i : Instr} (hC : fieldC op = 0xF)
    (h : decodeClassF op = some i) : encode i = op := by
  unfold decodeClassF at h
  split at h <;> cases h <;> exact formatXK_eq_iff.mpr ⟨hC, rfl, ‹_›⟩

/-- Settles O3: in each branch of the decision tree, the class, the selector and the operands read are
all the fields of the word's format. -/
theorem encodeOfDecodeIsTheWord : Obligations.EncodeOfDecodeIsTheWord := by
  intro op i h
  unfold decodeWord at h
  -- The n-th case is class n - 1; cases of one format share one argument.
  split at h
  case h_1 =>
    split at h
    next hop =>
      cases h
      exact hop.symm
    next =>
      obtain ⟨rfl, h⟩ := Option.ite_none_right_eq_some.mp h
      cases h
      rfl
  case h_2 hC | h_3 hC | h_11 hC | h_12 hC =>
    cases h
    exact formatA_eq_iff.mpr ⟨hC, rfl⟩
  case h_4 hC | h_5 hC | h_7 hC | h_8 hC | h_13 hC =>
    cases h
    exact formatXK_eq_iff.mpr ⟨hC, rfl, rfl⟩
  case h_6 hC | h_10 hC =>
    obtain ⟨hN, h⟩ := Option.ite_none_right_eq_some.mp h
    cases h
    exact formatXYN_eq_iff.mpr ⟨hC, rfl, rfl, hN⟩
  case h_9 hC => exact encode_of_decodeClass8 hC h
  case h_14 hC =>
    cases h
    exact formatXYN_eq_iff.mpr ⟨hC, rfl, rfl, rfl⟩
  case h_15 hC =>
    split at h
    next hKK =>
      cases h
      exact formatXK_eq_iff.mpr ⟨hC, rfl, hKK⟩
    next =>
      obtain ⟨hKK, h⟩ := Option.ite_none_right_eq_some.mp h
      cases h
      exact formatXK_eq_iff.mpr ⟨hC, rfl, hKK⟩
  case h_16 =>
    -- The other fifteen classes are excluded by the cases before.
    have hC : fieldC op = 0xF := by
      simp only [imp_false] at *
      bv_omega
    exact encode_of_decodeClassF hC h

/-- Different instructions have different words. -/
theorem encode_injective {i j : Instr} (h : encode i = encode j) : i = j :=
  Option.some_inj.mp (by rw [← decodeWord_encode i, h, decodeWord_encode])

end Sys2Proof
end

section
/-! The opcode table of R55: a row selects only words of its instruction, and every instruction's word
is selected by its row (`Laws.RowSelected`). So the table and the decision tree of R54 know the same
words, and no word is selected twice. -/

namespace Sys2Proof

/-- The mask 0xFFFF leaves the whole word. -/
theorem eq_of_selects {m : String} {v op : Word}
    (h : OpcodeRow.selects ⟨m, 0xFFFF, v⟩ op = true) : v = op :=
  calc v
    _ = op &&& BitVec.allOnes 16 := (eq_of_beq h).symm
    _ = op := BitVec.and_allOnes

/-- The mask 0xF000 leaves the class. -/
theorem fieldC_of_selects {m : String} {c : BitVec 4} {op : Word}
    (h : OpcodeRow.selects ⟨m, 0xF000, formatA c 0⟩ op = true) : fieldC op = c := by
  have hmasked : formatA (fieldC op) 0 = formatA c 0 :=
    calc formatA (fieldC op) 0
      _ = formatA (fieldC op) (fieldNNN op) &&& 0xF000 := (Laws.formatA_and_F000 _ _).symm
      _ = op &&& 0xF000 := by rw [formatA_fields]
      _ = formatA c 0 := eq_of_beq h
  simpa using congrArg fieldC hmasked

/-- The mask 0xF00F leaves the class and the low nibble. -/
theorem fieldC_fieldN_of_selects {m : String} {c n : BitVec 4} {op : Word}
    (h : OpcodeRow.selects ⟨m, 0xF00F, formatXYN c 0 0 n⟩ op = true) :
    fieldC op = c ∧ fieldN op = n := by
  have hmasked : formatXYN (fieldC op) 0 0 (fieldN op) = formatXYN c 0 0 n :=
    calc formatXYN (fieldC op) 0 0 (fieldN op)
      _ = formatXYN (fieldC op) (fieldX op) (fieldY op) (fieldN op) &&& 0xF00F :=
        (Laws.formatXYN_and_F00F _ _ _ _).symm
      _ = op &&& 0xF00F := by rw [formatXYN_fields]
      _ = formatXYN c 0 0 n := eq_of_beq h
  simpa using formatXYN_eq_iff.mp hmasked.symm

/-- The mask 0xF0FF leaves the class and the low byte. -/
theorem fieldC_fieldKK_of_selects {m : String} {c : BitVec 4} {kk : Byte} {op : Word}
    (h : OpcodeRow.selects ⟨m, 0xF0FF, formatXK c 0 kk⟩ op = true) :
    fieldC op = c ∧ fieldKK op = kk := by
  have hmasked : formatXK (fieldC op) 0 (fieldKK op) = formatXK c 0 kk :=
    calc formatXK (fieldC op) 0 (fieldKK op)
      _ = formatXK (fieldC op) (fieldX op) (fieldKK op) &&& 0xF0FF :=
        (Laws.formatXK_and_F0FF _ _ _).symm
      _ = op &&& 0xF0FF := by rw [formatXK_fields]
      _ = formatXK c 0 kk := eq_of_beq h
  simpa using formatXK_eq_iff.mp hmasked.symm

/-! A word that a row selects, as a word of the row's format. -/

theorem formatA_of_selects {m : String} {c : BitVec 4} {op : Word}
    (h : OpcodeRow.selects ⟨m, 0xF000, formatA c 0⟩ op = true) : formatA c (fieldNNN op) = op :=
  formatA_eq_iff.mpr ⟨fieldC_of_selects h, rfl⟩

theorem formatXK_of_selects_class {m : String} {c : BitVec 4} {op : Word}
    (h : OpcodeRow.selects ⟨m, 0xF000, formatA c 0⟩ op = true) :
    formatXK c (fieldX op) (fieldKK op) = op :=
  formatXK_eq_iff.mpr ⟨fieldC_of_selects h, rfl, rfl⟩

theorem formatXYN_of_selects_class {m : String} {c : BitVec 4} {op : Word}
    (h : OpcodeRow.selects ⟨m, 0xF000, formatA c 0⟩ op = true) :
    formatXYN c (fieldX op) (fieldY op) (fieldN op) = op :=
  formatXYN_eq_iff.mpr ⟨fieldC_of_selects h, rfl, rfl, rfl⟩

theorem formatXYN_of_selects {m : String} {c n : BitVec 4} {op : Word}
    (h : OpcodeRow.selects ⟨m, 0xF00F, formatXYN c 0 0 n⟩ op = true) :
    formatXYN c (fieldX op) (fieldY op) n = op := by
  obtain ⟨hC, hN⟩ := fieldC_fieldN_of_selects h
  exact formatXYN_eq_iff.mpr ⟨hC, rfl, rfl, hN⟩

theorem formatXK_of_selects {m : String} {c : BitVec 4} {kk : Byte} {op : Word}
    (h : OpcodeRow.selects ⟨m, 0xF0FF, formatXK c 0 kk⟩ op = true) :
    formatXK c (fieldX op) kk = op := by
  obtain ⟨hC, hKK⟩ := fieldC_fieldKK_of_selects h
  exact formatXK_eq_iff.mpr ⟨hC, rfl, hKK⟩

/-- The row selects only words of instructions with the row's mnemonic. -/
def OpcodeRow.SelectsOnlyItsWords (row : OpcodeRow) : Prop :=
  ∀ op : Word, row.selects op = true →
    ∃ i, Laws.RowSelected.mnemonic i = row.mnemonic ∧ encode i = op

theorem opcodeRowsA_selects_only : ∀ row ∈ opcodeRowsA, row.SelectsOnlyItsWords := by
  simp only [opcodeRowsA, List.forall_mem_cons]
  exact ⟨
    fun _ h => ⟨.cls, rfl, eq_of_selects h⟩,
    fun _ h => ⟨.ret, rfl, eq_of_selects h⟩,
    fun _ h => ⟨.jpAddr _, rfl, formatA_of_selects h⟩,
    fun _ h => ⟨.callAddr _, rfl, formatA_of_selects h⟩,
    fun _ h => ⟨.seVxKk _ _, rfl, formatXK_of_selects_class h⟩,
    fun _ h => ⟨.sneVxKk _ _, rfl, formatXK_of_selects_class h⟩,
    fun _ h => ⟨.seVxVy _ _, rfl, formatXYN_of_selects h⟩,
    fun _ h => ⟨.ldVxKk _ _, rfl, formatXK_of_selects_class h⟩,
    fun _ h => ⟨.addVxKk _ _, rfl, formatXK_of_selects_class h⟩,
    fun _ h => ⟨.ldVxVy _ _, rfl, formatXYN_of_selects h⟩,
    fun _ h => ⟨.orVxVy _ _, rfl, formatXYN_of_selects h⟩,
    fun _ h => ⟨.andVxVy _ _, rfl, formatXYN_of_selects h⟩,
    nofun⟩

theorem opcodeRowsB_selects_only : ∀ row ∈ opcodeRowsB, row.SelectsOnlyItsWords := by
  simp only [opcodeRowsB, List.forall_mem_cons]
  exact ⟨
    fun _ h => ⟨.xorVxVy _ _, rfl, formatXYN_of_selects h⟩,
    fun _ h => ⟨.addVxVy _ _, rfl, formatXYN_of_selects h⟩,
    fun _ h => ⟨.subVxVy _ _, rfl, formatXYN_of_selects h⟩,
    fun _ h => ⟨.subnVxVy _ _, rfl, formatXYN_of_selects h⟩,
    fun _ h => ⟨.shrVx _ _, rfl, formatXYN_of_selects h⟩,
    fun _ h => ⟨.shlVx _ _, rfl, formatXYN_of_selects h⟩,
    fun _ h => ⟨.sneVxVy _ _, rfl, formatXYN_of_selects h⟩,
    fun _ h => ⟨.ldIAddr _, rfl, formatA_of_selects h⟩,
    fun _ h => ⟨.jpV0Addr _, rfl, formatA_of_selects h⟩,
    fun _ h => ⟨.rndVxKk _ _, rfl, formatXK_of_selects_class h⟩,
    fun _ h => ⟨.drwVxVyN _ _ _, rfl, formatXYN_of_selects_class h⟩,
    nofun⟩

theorem opcodeRowsC_selects_only : ∀ row ∈ opcodeRowsC, row.SelectsOnlyItsWords := by
  simp only [opcodeRowsC, List.forall_mem_cons]
  exact ⟨
    fun _ h => ⟨.skpVx _, rfl, formatXK_of_selects h⟩,
    fun _ h => ⟨.sknpVx _, rfl, formatXK_of_selects h⟩,
    fun _ h => ⟨.ldVxDt _, rfl, formatXK_of_selects h⟩,
    fun _ h => ⟨.ldVxK _, rfl, formatXK_of_selects h⟩,
    fun _ h => ⟨.ldDtVx _, rfl, formatXK_of_selects h⟩,
    fun _ h => ⟨.ldStVx _, rfl, formatXK_of_selects h⟩,
    fun _ h => ⟨.addIVx _, rfl, formatXK_of_selects h⟩,
    fun _ h => ⟨.ldFVx _, rfl, formatXK_of_selects h⟩,
    fun _ h => ⟨.ldBVx _, rfl, formatXK_of_selects h⟩,
    fun _ h => ⟨.ldMemVx _, rfl, formatXK_of_selects h⟩,
    fun _ h => ⟨.ldVxMem _, rfl, formatXK_of_selects h⟩,
    nofun⟩

theorem opcodeTable_selects_only : ∀ row ∈ opcodeTable, row.SelectsOnlyItsWords := by
  rw [opcodeTable, List.forall_mem_append, List.forall_mem_append]
  exact ⟨⟨opcodeRowsA_selects_only, opcodeRowsB_selects_only⟩, opcodeRowsC_selects_only⟩

/-- Every instruction's word selects the row of its mnemonic. -/
theorem rowSelected : ∀ i : Instr, Laws.RowSelected.Statement i
  | .cls => Laws.RowSelected.cls
  | .ret => Laws.RowSelected.ret
  | .jpAddr nnn => Laws.RowSelected.jpAddr nnn
  | .callAddr nnn => Laws.RowSelected.callAddr nnn
  | .seVxKk x kk => Laws.RowSelected.seVxKk x kk
  | .sneVxKk x kk => Laws.RowSelected.sneVxKk x kk
  | .seVxVy x y => Laws.RowSelected.seVxVy x y
  | .ldVxKk x kk => Laws.RowSelected.ldVxKk x kk
  | .addVxKk x kk => Laws.RowSelected.addVxKk x kk
  | .ldVxVy x y => Laws.RowSelected.ldVxVy x y
  | .orVxVy x y => Laws.RowSelected.orVxVy x y
  | .andVxVy x y => Laws.RowSelected.andVxVy x y
  | .xorVxVy x y => Laws.RowSelected.xorVxVy x y
  | .addVxVy x y => Laws.RowSelected.addVxVy x y
  | .subVxVy x y => Laws.RowSelected.subVxVy x y
  | .subnVxVy x y => Laws.RowSelected.subnVxVy x y
  | .shrVx x y => Laws.RowSelected.shrVx x y
  | .shlVx x y => Laws.RowSelected.shlVx x y
  | .sneVxVy x y => Laws.RowSelected.sneVxVy x y
  | .ldIAddr nnn => Laws.RowSelected.ldIAddr nnn
  | .jpV0Addr nnn => Laws.RowSelected.jpV0Addr nnn
  | .rndVxKk x kk => Laws.RowSelected.rndVxKk x kk
  | .drwVxVyN x y n => Laws.RowSelected.drwVxVyN x y n
  | .skpVx x => Laws.RowSelected.skpVx x
  | .sknpVx x => Laws.RowSelected.sknpVx x
  | .ldVxDt x => Laws.RowSelected.ldVxDt x
  | .ldVxK x => Laws.RowSelected.ldVxK x
  | .ldDtVx x => Laws.RowSelected.ldDtVx x
  | .ldStVx x => Laws.RowSelected.ldStVx x
  | .addIVx x => Laws.RowSelected.addIVx x
  | .ldFVx x => Laws.RowSelected.ldFVx x
  | .ldBVx x => Laws.RowSelected.ldBVx x
  | .ldMemVx x => Laws.RowSelected.ldMemVx x
  | .ldVxMem x => Laws.RowSelected.ldVxMem x

/-- Settles O4: a word that decodes is the word of an instruction, which its row selects; a word that a
row selects is the word of an instruction, which decodes. -/
theorem decoderKnowsExactlyTheTablesWords : Obligations.DecoderKnowsExactlyTheTablesWords := by
  intro op
  rw [Bool.eq_iff_iff, Option.isSome_iff_exists, wordKnown, List.any_eq_true]
  constructor
  · rintro ⟨i, hi⟩
    obtain ⟨⟨row, hrow, -, hsel⟩, -⟩ := rowSelected i
    exact ⟨row, hrow, encodeOfDecodeIsTheWord op i hi ▸ hsel⟩
  · rintro ⟨row, hrow, hsel⟩
    obtain ⟨i, -, rfl⟩ := opcodeTable_selects_only row hrow op hsel
    exact ⟨i, decodeWord_encode i⟩

/-- A word outside the table does not decode (R56). -/
theorem decodeWord_eq_none {op : Word} (h : wordKnown op = false) : decodeWord op = none :=
  Option.isNone_iff_eq_none.mp
    (Option.isSome_eq_false_iff.mp ((decoderKnowsExactlyTheTablesWords op).trans h))

/-- No two rows have the same mnemonic. -/
theorem opcodeTable_mnemonics_differ :
    opcodeTable.Pairwise fun p q => p.mnemonic ≠ q.mnemonic := by
  decide

/-- Settles O5: a word that two rows select is the word of one instruction, whose mnemonic both have. -/
theorem opcodePatternsAreDisjoint : Obligations.OpcodePatternsAreDisjoint := by
  refine opcodeTable_mnemonics_differ.imp_of_mem fun hp hq hne op ⟨hpsel, hqsel⟩ => hne ?_
  obtain ⟨i, hpi, hi⟩ := opcodeTable_selects_only _ hp op hpsel
  obtain ⟨j, hqj, hj⟩ := opcodeTable_selects_only _ hq op hqsel
  obtain rfl : i = j := encode_injective (hi.trans hj.symm)
  exact hpi.symm.trans hqj

/-- Settles O1: twelve of the words encode the instructions named, and no row selects the other five. -/
theorem specWordsDecodeToTheirInstructions : Obligations.SpecWordsDecodeToTheirInstructions :=
  ⟨decodeWord_encode .cls, decodeWord_encode .ret,
    decodeWord_encode (.callAddr 0xABC), decodeWord_encode (.seVxKk 15 0x00),
    decodeWord_encode (.ldVxKk 10 0x3C), decodeWord_encode (.shrVx 10 11),
    decodeWord_encode (.subnVxVy 10 11), decodeWord_encode (.jpV0Addr 0x123),
    decodeWord_encode (.drwVxVyN 1 2 5), decodeWord_encode (.sknpVx 1),
    decodeWord_encode (.ldMemVx 1), decodeWord_encode (.ldVxMem 1),
    decodeWord_eq_none (by decide), decodeWord_eq_none (by decide), decodeWord_eq_none (by decide),
    decodeWord_eq_none (by decide), decodeWord_eq_none (by decide)⟩

end Sys2Proof
end

section
/-! The shifts read their first field only (R57, R100, R101). -/

namespace Sys2Proof.Machine

theorem exec_shrVx_eq (x y : Reg) (s : State) : exec (.shrVx x y) s =
    retire (s.setResultAndFlag x (s.reg x >>> 1) (shiftedOutRight (s.reg x))) := rfl

theorem exec_shlVx_eq (x y : Reg) (s : State) : exec (.shlVx x y) s =
    retire (s.setResultAndFlag x (s.reg x <<< 1) (shiftedOutLeft (s.reg x))) := rfl

/-- Settles O6: what SHR and SHL do is said without their `y` field. -/
theorem shiftsIgnoreTheSecondField : Obligations.ShiftsIgnoreTheSecondField := fun x y y' s =>
  ⟨(exec_shrVx_eq x y s).trans (exec_shrVx_eq x y' s).symm,
    (exec_shlVx_eq x y s).trans (exec_shlVx_eq x y' s).symm⟩

end Sys2Proof.Machine
end

section
/-! Frames of the host's side and of updates made one after another. -/

namespace Sys2Proof.Machine

theorem SameIn.trans {s t u : State} {p : Part} (hst : SameIn s t p) (htu : SameIn t u p) :
    SameIn s u p := by
  cases p with
  | hostSide =>
    obtain ⟨hscript, hinput, hcount, hwindow⟩ := hst
    obtain ⟨hscript', hinput', hcount', hwindow'⟩ := htu
    exact ⟨hscript'.trans hscript, hinput'.trans hinput, hcount'.trans hcount,
      hwindow'.trans hwindow⟩
  | _ => exact Eq.trans htu hst

theorem OnlyChanges.trans {P : Part → Prop} {s t u : State} (hst : OnlyChanges P s t)
    (htu : OnlyChanges P t u) : OnlyChanges P s u :=
  fun p hp => (hst p hp).trans (htu p hp)

/-- Taking an operation off the script, presenting inputs and reporting are the host's side only. -/
theorem onlyChanges_hostSide (s : State) (rest : List HostOp) (input : StepInput) (window : Bool)
    (r : Report) : OnlyChanges (fun p => p = .hostSide) s
      { s with script := rest, input := input, loadWindow := window, report := r } := by
  intro p hp
  cases p with
  | hostSide => exact absurd rfl hp
  | _ => rfl

end Sys2Proof.Machine
end

section
/-! How an instruction ends: it completes or raises a fault, and a fault leaves all but the mode
(40_step_engine.md R75, R77, R78). -/

namespace Sys2Proof.Machine

/-- An instruction that goes to `u` or raises can only complete in `u`: a fault reports itself. -/
theorem Completes.eq_of_ite_raise {i : Instr} {s t u : State} {kind : FaultKind} {c : Prop}
    [Decidable c] (h : Completes i s t) (he : exec i s = if c then .next u else raise kind s) :
    t = u := by
  obtain ⟨hx, hok⟩ := h
  rw [he] at hx
  split at hx
  · cases hx
    rfl
  · cases hx
    cases hok

/-- An instruction that goes to `u`, reporting Ok, or raises. -/
theorem completes_or_raises_of_ite {i : Instr} {s t u : State} {kind : FaultKind} {c : Prop}
    [Decidable c] (h : exec i s = .next t) (he : exec i s = if c then .next u else raise kind s)
    (hu : u.report = .step .ok) : Completes i s t ∨ ∃ kind, exec i s = raise kind s := by
  by_cases hc : c
  · rw [if_pos hc] at he
    cases he.symm.trans h
    exact .inl ⟨h, hu⟩
  · exact .inr ⟨kind, he.trans (if_neg hc)⟩

/-- An instruction completes or raises a fault. -/
theorem exec_completes_or_raises {i : Instr} {s t : State} (h : exec i s = .next t) :
    Completes i s t ∨ ∃ kind, exec i s = raise kind s := by
  cases i with
  | ret =>
    exact completes_or_raises_of_ite h ((exec_ret_eq s).trans (ite_not _ _ _).symm) rfl
  | callAddr nnn =>
    exact completes_or_raises_of_ite h ((exec_callAddr_eq nnn s).trans (ite_not _ _ _).symm) rfl
  | drwVxVyN x y n => exact completes_or_raises_of_ite h (exec_drwVxVyN_eq x y n s) rfl
  | ldBVx x => exact completes_or_raises_of_ite h (exec_ldBVx_eq x s) rfl
  | ldMemVx x => exact completes_or_raises_of_ite h (exec_ldMemVx_eq x s) rfl
  | ldVxMem x => exact completes_or_raises_of_ite h (exec_ldVxMem_eq x s) rfl
  | _ => cases h; exact .inl ⟨rfl, rfl⟩

/-- An instruction that halts a running machine did so by taking the fault. -/
theorem exec_halted {i : Instr} {s t : State} {kind : FaultKind} (hrun : s.mode = .running)
    (h : exec i s = .next t) (hhalt : t.mode = .halted kind) :
    t = { s with mode := .halted kind, report := .step (.fault kind) } := by
  rcases exec_mode h with hm | ⟨x, -, rfl⟩ | ⟨kind', hr⟩
  · exact nomatch hrun.symm.trans (hm.symm.trans hhalt)
  · exact nomatch hhalt
  · cases hr.symm.trans h
    cases hhalt
    rfl

/-- Settles O15: the state after a fault differs from the one before in the mode and the report. -/
theorem faultsChangeOnlyTheMode : Obligations.FaultsChangeOnlyTheMode := by
  intro i s t kind hrun h hhalt
  obtain rfl := exec_halted hrun h hhalt
  exact ⟨onlyChanges_mode (P := fun p => p = .mode) s rfl _ _, rfl⟩

/-- Settles O18: the four that access memory complete only where they go on to `pc + 2`, the rest always
do. -/
theorem otherInstructionsAdvanceByTwo : Obligations.OtherInstructionsAdvanceByTwo := by
  intro i s t h hret hjump hbyte hregs hkey
  cases i with
  | ret => exact absurd rfl hret
  | jpAddr n => exact absurd rfl (hjump n).1
  | callAddr n => exact absurd rfl (hjump n).2.1
  | jpV0Addr n => exact absurd rfl (hjump n).2.2
  | seVxKk x kk => exact absurd rfl (hbyte x kk).1
  | sneVxKk x kk => exact absurd rfl (hbyte x kk).2
  | seVxVy x y => exact absurd rfl (hregs x y).1
  | sneVxVy x y => exact absurd rfl (hregs x y).2
  | skpVx x => exact absurd rfl (hkey x).1
  | sknpVx x => exact absurd rfl (hkey x).2.1
  | ldVxK x => exact absurd rfl (hkey x).2.2
  | drwVxVyN x y n => rw [h.eq_of_ite_raise (exec_drwVxVyN_eq x y n s)]
  | ldBVx x => rw [h.eq_of_ite_raise (exec_ldBVx_eq x s)]
  | ldMemVx x => rw [h.eq_of_ite_raise (exec_ldMemVx_eq x s)]
  | ldVxMem x => rw [h.eq_of_ite_raise (exec_ldVxMem_eq x s)]
  | _ => cases h.1; rfl

end Sys2Proof.Machine
end

section
/-! The inputs of a Step: only SKP and SKNP read the held keys, only RND the random byte
(40_step_engine.md R79). -/

namespace Sys2Proof.Machine

/-- The key test depends on the inputs through the held keys only. -/
theorem State.keyHeld_withInput {s : State} {input : StepInput}
    (h : input.keysHeld = s.input.keysHeld) (k : Key) :
    State.keyHeld { s with input := input } k = s.keyHeld k :=
  congrArg (·.getLsbD k.val) h

/-- Settles O13: the readers see the same input by the premise, and no other meaning mentions one. -/
theorem inputsReachOnlyTheirReaders : Obligations.InputsReachOnlyTheirReaders := by
  intro i s t input h hkeys hrnd
  cases i with
  | skpVx x =>
    have hheld := hkeys.resolve_left fun hno => (hno x).1 rfl
    rw [exec, execSkpVx, State.keyHeld_withInput hheld]
    cases h
    rfl
  | sknpVx x =>
    have hheld := hkeys.resolve_left fun hno => (hno x).2 rfl
    rw [exec, execSknpVx, State.keyHeld_withInput hheld]
    cases h
    rfl
  | rndVxKk x kk =>
    have hbyte := hrnd.resolve_left fun hno => hno x kk rfl
    rw [exec, execRndVxKk, hbyte]
    cases h
    rfl
  | ret => exact next_ite_map ({ · with input := input }) h
  | callAddr nnn => exact next_ite_map ({ · with input := input }) h
  | drwVxVyN x y n =>
    rw [exec_drwVxVyN_eq] at h ⊢
    exact next_ite_map ({ · with input := input }) h
  | ldBVx x =>
    rw [exec_ldBVx_eq] at h ⊢
    exact next_ite_map ({ · with input := input }) h
  | ldMemVx x =>
    rw [exec_ldMemVx_eq] at h ⊢
    exact next_ite_map ({ · with input := input }) h
  | ldVxMem x =>
    rw [exec_ldVxMem_eq] at h ⊢
    rw [State.setRegsFrom_v_congr (s := s) (t := { s with input := input }) _ _ rfl]
    exact next_ite_map ({ · with input := input }) h
  | _ => cases h; rfl

end Sys2Proof.Machine
end

section
/-! The step engine in each mode (40_step_engine.md R70 to R77). -/

namespace Sys2Proof.Machine

/-! ### Running -/

/-- A Step of a running machine executes what the two bytes at `pc` decode to. -/
theorem stepOp_of_decodeWord {s : State} {i : Instr} {hi lo : Byte} (hrun : s.mode = .running)
    (hhi : s.readByte s.pc.toNat = some hi) (hlo : s.readByte (s.pc.toNat + 1) = some lo)
    (hd : decodeWord (wordOfBytes hi lo) = some i) (input : StepInput) :
    stepOp exec input s = exec i (s.present input) := by
  rw [stepOp_running hrun, runningStep, State.fetch_present, State.fetch_of_readByte hhi hlo,
    orRaise_some, hd]

/-- Settles O7: taking the Step off the script, or a free input off the counter, disturbs neither the mode
nor the fetch. -/
theorem runningStepRunsTheDecodedInstruction :
    Obligations.RunningStepRunsTheDecodedInstruction := by
  intro s i hi lo hrun hhi hlo hd
  refine ⟨fun input rest hscript => ?_, fun hscript => ?_⟩
  · rw [step_of_script hscript]
    exact stepOp_of_decodeWord (s := { s with script := rest }) hrun hhi hlo hd input
  · rw [step_of_no_script hscript]
    exact stepOp_of_decodeWord (s := { s with hostCount := s.hostCount + 1 }) hrun hhi hlo hd _

/-- A Step of a running machine with `pc` above 4094 raises MemoryFault. -/
theorem stepOp_fetch_fault {s : State} (hrun : s.mode = .running) (hpc : 4094 < s.pc.toNat)
    (input : StepInput) : stepOp exec input s = raise .memoryFault (s.present input) := by
  rw [stepOp_running hrun, runningStep, State.fetch_present, State.fetch_eq, if_neg (by omega),
    orRaise_none]

/-- Settles O9: the fault is raised in the state with the inputs presented, which is the host's side. -/
theorem fetchOutsideMemoryHalts : Obligations.FetchOutsideMemoryHalts := by
  intro s input rest hrun hpc hscript
  refine ⟨_, (step_of_script hscript).trans
    (stepOp_fetch_fault (s := { s with script := rest }) hrun hpc input), rfl, rfl, ?_⟩
  exact ((onlyChanges_hostSide s rest input false s.report).mono fun _ => .inr).trans
    (onlyChanges_mode _ (.inl rfl) _ _)

/-! ### Waiting -/

theorem waitStep_of_no_press {s : State} (hk : s.input.keyPress = none) (x : Reg) :
    waitStep x s = .next { s with report := .step .ok } := by
  rw [waitStep, hk]
  rfl

theorem waitStep_of_press {s : State} {k : Key} (hk : s.input.keyPress = some k) (x : Reg) :
    waitStep x s = .next { s.setReg x (BitVec.ofNat 8 k.val) with
      mode := .running, pc := s.pc + 2, report := .step .ok } := by
  rw [waitStep, hk]
  rfl

/-- A press changes the waiting register, the mode and `pc`. -/
theorem onlyChanges_press (s : State) (x : Reg) (b : Byte) (q : Word) (r : Report) :
    OnlyChanges (fun p => p = .reg x ∨ p = .mode ∨ p = .pc ∨ p = .hostSide) s
      { s.setReg x b with mode := .running, pc := q, report := r } :=
  ((frame_setReg s x b q r).mono (by rintro p (h | h) <;> simp [h])).trans
    (onlyChanges_mode _ (.inr (.inl rfl)) _ _)

/-- Settles O10: what a waiting Step does with each press, in the state with the inputs presented. -/
theorem waitingStepTakesOnlyAKeyPress : Obligations.WaitingStepTakesOnlyAKeyPress := by
  intro s x input rest hwait hscript
  have hstep : step s = waitStep x (({ s with script := rest } : State).present input) :=
    (step_of_script hscript).trans
      (stepOp_awaiting (s := { s with script := rest }) hwait exec input)
  refine ⟨fun hnone => ⟨_, hstep.trans (waitStep_of_no_press hnone x), rfl, ?frame⟩,
    fun k hk => ⟨_, hstep.trans (waitStep_of_press hk x), rfl, ?key, rfl, rfl, ?frame_press⟩⟩
  case frame => exact onlyChanges_hostSide s rest input false _
  case key =>
    have hreg := State.reg_setReg s x x (BitVec.ofNat 8 k.val)
    rw [if_pos rfl] at hreg
    exact (congrArg BitVec.toNat hreg).trans (Nat.mod_eq_of_lt (by omega))
  case frame_press =>
    have hhost := onlyChanges_hostSide s rest input false s.report
    exact (hhost.mono fun _ hp => .inr (.inr (.inr hp))).trans (onlyChanges_press _ x _ _ _)

/-! ### Halted -/

/-- Settles O11: each of the three operations answers in the report and, beside it, touches the host's side
only. -/
theorem haltedMachineOnlyReports : Obligations.HaltedMachineOnlyReports := by
  intro s kind op rest hhalt hscript hreset hload
  rw [step_of_script hscript]
  cases op with
  | step input =>
    exact ⟨_, stepOp_halted (s := { s with script := rest }) hhalt exec input,
      onlyChanges_hostSide s rest input false _, fun _ _ => rfl, nofun, nofun⟩
  | tick =>
    rcases tickOp_cases { s with script := rest } with ⟨-, ht⟩ | ⟨hno, -⟩
    · exact ⟨_, ht, onlyChanges_hostSide s rest s.input false _, nofun, fun _ => rfl, nofun⟩
    · rw [hhalt] at hno
      cases hno
  | fbRead r c =>
    refine ⟨_, rfl, onlyChanges_hostSide s rest s.input s.loadWindow _, nofun, nofun, ?_⟩
    rintro _ _ ⟨⟩
    rfl
  | load image => exact absurd rfl (hload image)
  | reset => exact absurd rfl hreset

/-! ### The outcome -/

/-- The report is the outcome of a Step, and it is a fault exactly when the machine is halted by it. -/
def State.ReportsOutcome (t : State) : Prop :=
  ∃ outcome, t.report = .step outcome ∧ ∀ kind, outcome = .fault kind ↔ t.mode = .halted kind

theorem State.ReportsOutcome.of_halted {t : State} {kind : FaultKind}
    (hr : t.report = .step (.fault kind)) (hm : t.mode = .halted kind) : t.ReportsOutcome :=
  ⟨_, hr, fun kind' => by rw [hm, StepOutcome.fault.injEq, Mode.halted.injEq]⟩

theorem State.ReportsOutcome.of_not_halted {t : State} {outcome : StepOutcome}
    (hr : t.report = .step outcome) (ho : ∀ kind, outcome ≠ .fault kind)
    (hm : ∀ kind, t.mode ≠ .halted kind) : t.ReportsOutcome :=
  ⟨_, hr, fun kind => iff_of_false (ho kind) (hm kind)⟩

/-- An instruction executed by a running machine reports its outcome. -/
theorem exec_reportsOutcome {i : Instr} {s t : State} (hrun : s.mode = .running)
    (h : exec i s = .next t) : t.ReportsOutcome := by
  rcases exec_completes_or_raises h with ⟨-, hok⟩ | ⟨kind, hr⟩
  · refine .of_not_halted hok (fun _ => nofun) fun kind hm => ?_
    rw [exec_halted hrun h hm] at hok
    cases hok
  · cases hr.symm.trans h
    exact .of_halted rfl rfl

/-- A Step reports its outcome whichever way it goes. -/
theorem StepCase.reportsOutcome {s t : State} {input : StepInput} (h : StepCase s input t) :
    t.ReportsOutcome := by
  cases h with
  | halted kind hm => exact .of_halted rfl hm
  | noPress x hm => exact .of_not_halted rfl (fun _ => nofun) fun _ hh => nomatch hm.symm.trans hh
  | press => exact .of_not_halted rfl (fun _ => nofun) fun _ => nofun
  | fetchFault => exact .of_halted rfl rfl
  | unknown w hm => exact .of_not_halted rfl (fun _ => nofun) fun _ hh => nomatch hm.symm.trans hh
  | executes w i _ hm _ _ _ hx => exact exec_reportsOutcome (s := s.present input) hm hx

/-- A Step answers a next state in every mode. -/
theorem stepOp_next (s : State) (input : StepInput) : ∃ t, stepOp exec input s = .next t := by
  cases hm : s.mode with
  | halted kind => exact ⟨_, stepOp_halted hm exec input⟩
  | awaitingKey x =>
    rw [stepOp_awaiting hm]
    rcases waitStep_cases x (s.present input) with ⟨-, hw⟩ | ⟨k, -, hw⟩ <;> exact ⟨_, hw⟩
  | running =>
    rw [stepOp_running hm]
    rcases runningStep_cases exec (s.present input) with
      ⟨-, hr⟩ | ⟨w, -, -, ⟨-, hr⟩ | ⟨i, -, hr⟩⟩
    · exact ⟨_, hr⟩
    · exact ⟨_, hr⟩
    · exact hr ▸ exec_next i (s.present input)

/-- Settles O17: a Step answers, and each way it can go reports its outcome. -/
theorem everyStepReturnsOneOutcome : Obligations.EveryStepReturnsOneOutcome := by
  intro s input rest hscript
  obtain ⟨t, ht⟩ := stepOp_next { s with script := rest } input
  obtain ⟨outcome, hreport, hfault⟩ := (stepOp_stepCase ht).reportsOutcome
  exact ⟨t, outcome, (step_of_script hscript).trans ht, hreport, hfault⟩

end Sys2Proof.Machine
end

section
/-! RET and CALL: what they do to the stack (41_control_transfer.md R80, R82). -/

namespace Sys2Proof.Machine

/-- An instruction that moves `sp` and `pc` and may write into the stack: its frame asks only for the slots
outside `P`. -/
theorem onlyChanges_slots {P : Part → Prop} (s : State) (hsp : P .sp) (hpc : P .pc)
    {stack : Vector Word 16} (hslot : ∀ j : Fin 16, ¬P (.slot j) → stack[j.val] = s.stack[j.val])
    (k : Fin 16) (q : Word) (r : Report) :
    OnlyChanges P s { s with sp := k, stack := stack, pc := q, report := r } := by
  intro p hp
  cases p with
  | sp => exact absurd hsp hp
  | slot j => exact hslot j hp
  | pc => exact absurd hpc hp
  | hostSide => exact ⟨rfl, rfl, rfl, rfl⟩
  | _ => rfl

theorem exec_ret_of_ne {s : State} (h : s.sp ≠ 0) : exec .ret s =
    .next { s with pc := s.stack[s.sp.val], sp := s.sp - 1, report := .step .ok } :=
  (exec_ret_eq s).trans (if_neg h)

theorem exec_callAddr_of_ne {s : State} (h : s.sp ≠ 15) (nnn : Addr12) : exec (.callAddr nnn) s =
    .next { s with
      sp := s.sp + 1, stack := s.stack.set (s.sp + 1).val (s.pc + 2), pc := zext16 nnn,
      report := .step .ok } :=
  (exec_callAddr_eq nnn s).trans (if_neg h)

/-- Settles O19: RET moves `pc` and `sp` and leaves every slot; it raises exactly when `sp` is 0. -/
theorem returnPopsTheReturnAddress : Obligations.ReturnPopsTheReturnAddress := by
  refine fun s => ⟨fun hne => ?_, fun hempty => (exec_ret_eq s).trans (if_pos hempty)⟩
  have hsp : (s.sp - 1).val = s.sp.val - 1 := by omega
  exact ⟨_, ⟨exec_ret_of_ne hne, rfl⟩, rfl, hsp,
    onlyChanges_slots s (.inr rfl) (.inl rfl) (fun _ _ => rfl) _ _ _⟩

/-- Settles O20: CALL writes the one slot that the new `sp` names; it raises exactly when `sp` is 15. -/
theorem callPushesTheReturnAddress : Obligations.CallPushesTheReturnAddress := by
  refine fun nnn s => ⟨fun hne => ?_, fun hfull => (exec_callAddr_eq nnn s).trans (if_pos hfull)⟩
  have hsp : (s.sp + 1).val = s.sp.val + 1 := by omega
  refine ⟨_, ⟨exec_callAddr_of_ne hne nnn, rfl⟩, hsp, Vector.getElem_set_self _, zext16_toNat nnn,
    onlyChanges_slots s (.inr (.inl rfl)) (.inl rfl) (fun j hj => ?_) _ _ _⟩
  have hother : (s.sp + 1).val ≠ j.val := fun h =>
    hj (.inr (.inr (congrArg Part.slot (Fin.ext h).symm)))
  exact Vector.getElem_set_ne _ _ hother

/-- Settles O21: RET reads the slot that CALL wrote and takes `sp` back, and neither touches the mode. -/
theorem callThenReturnComesBack : Obligations.CallThenReturnComesBack := by
  intro nnn s hne
  obtain ⟨t, ⟨hcall, -⟩, hsp, hslot, -, hframe⟩ := (callPushesTheReturnAddress nnn s).1 hne
  have hopen : t.sp ≠ 0 := by omega
  obtain ⟨u, ⟨hret, -⟩, hpc, hsp', hframe'⟩ := (returnPopsTheReturnAddress t).1 hopen
  exact ⟨t, u, hcall, hret, hpc.trans hslot, by omega,
    (hframe .mode (by simp)).trans (hframe' .mode (by simp))⟩

end Sys2Proof.Machine
end

section
/-! The jumps and the conditional skips: they complete from every state and change `pc` only
(41_control_transfer.md R81, R83 to R87). -/

namespace Sys2Proof.Machine

/-! ### Jumps -/

theorem exec_jpAddr_eq (nnn : Addr12) (s : State) : exec (.jpAddr nnn) s =
    .next { s with pc := zext16 nnn, report := .step .ok } := rfl

theorem exec_jpV0Addr_eq (nnn : Addr12) (s : State) : exec (.jpV0Addr nnn) s =
    .next { s with pc := zext16 nnn + (s.reg 0).setWidth 16, report := .step .ok } := rfl

/-- The 16-bit sum of a 12-bit address and a byte is their sum on naturals: it never wraps (D27). -/
theorem jpV0_target_toNat (nnn : Addr12) (b : Byte) :
    (zext16 nnn + b.setWidth 16).toNat = nnn.toNat + b.toNat := by
  rw [BitVec.toNat_add, zext16_toNat, BitVec.toNat_setWidth]
  omega

/-- Settles O22: the target is the address zero-extended. -/
theorem jumpGoesToItsAddress : Obligations.JumpGoesToItsAddress := fun nnn s =>
  ⟨_, ⟨exec_jpAddr_eq nnn s, rfl⟩, zext16_toNat nnn, frame_pc s _ _⟩

/-- Settles O23: the target is a sum that fits in 16 bits. -/
theorem jumpWithOffsetAddsVZero : Obligations.JumpWithOffsetAddsVZero := fun nnn s =>
  ⟨_, ⟨exec_jpV0Addr_eq nnn s, rfl⟩, jpV0_target_toNat nnn _, frame_pc s _ _⟩

/-! ### Skips -/

section Skips

variable {i : Instr} {s : State} {cond : Bool} {C : Prop} [Decidable C]

/-- An instruction that skips exactly when `C` holds (R75b, D11). -/
theorem completes_of_skipIf (h : exec i s = returnOk (s.skipIf cond)) (hcond : cond = true ↔ C) :
    ∃ t, Completes i s t ∧ t.pc = (if C then s.pc + 4 else s.pc + 2) ∧
      OnlyChanges (fun p => p = .pc) s t :=
  ⟨_, ⟨h, rfl⟩, if_congr hcond rfl rfl, frame_pc s _ _⟩

/-- An instruction that skips exactly when `C` fails (R75b, D11). -/
theorem completes_of_skipIf_not (h : exec i s = returnOk (s.skipIf cond))
    (hcond : cond = true ↔ ¬C) :
    ∃ t, Completes i s t ∧ t.pc = (if C then s.pc + 2 else s.pc + 4) ∧
      OnlyChanges (fun p => p = .pc) s t := by
  rw [← ite_not]
  exact completes_of_skipIf h hcond

end Skips

theorem byte_beq_iff (a b : Byte) : (a == b) = true ↔ a.toNat = b.toNat :=
  beq_iff_eq.trans BitVec.toNat_inj.symm

theorem byte_bne_iff (a b : Byte) : (a != b) = true ↔ ¬a.toNat = b.toNat :=
  bne_iff_ne.trans (not_congr BitVec.toNat_inj.symm)

theorem exec_seVxKk_eq (x : Reg) (kk : Byte) (s : State) :
    exec (.seVxKk x kk) s = returnOk (s.skipIf (s.reg x == kk)) := rfl

theorem exec_sneVxKk_eq (x : Reg) (kk : Byte) (s : State) :
    exec (.sneVxKk x kk) s = returnOk (s.skipIf (s.reg x != kk)) := rfl

theorem exec_seVxVy_eq (x y : Reg) (s : State) :
    exec (.seVxVy x y) s = returnOk (s.skipIf (s.reg x == s.reg y)) := rfl

theorem exec_sneVxVy_eq (x y : Reg) (s : State) :
    exec (.sneVxVy x y) s = returnOk (s.skipIf (s.reg x != s.reg y)) := rfl

/-- Settles O24: SE skips on equal bytes, SNE on different ones. -/
theorem byteSkipsCompareWithTheByte : Obligations.ByteSkipsCompareWithTheByte := fun x kk s =>
  ⟨completes_of_skipIf (exec_seVxKk_eq x kk s) (byte_beq_iff _ _),
    completes_of_skipIf_not (exec_sneVxKk_eq x kk s) (byte_bne_iff _ _)⟩

/-- Settles O25: as with a byte, the second operand being a register. -/
theorem registerSkipsCompareTheRegisters : Obligations.RegisterSkipsCompareTheRegisters :=
  fun x y s =>
  ⟨completes_of_skipIf (exec_seVxVy_eq x y s) (byte_beq_iff _ _),
    completes_of_skipIf_not (exec_sneVxVy_eq x y s) (byte_bne_iff _ _)⟩

end Sys2Proof.Machine
end

section
/-! Registers and arithmetic (42_alu.md R90 to R103): what each meaning writes, the bytes and flags it
computes as naturals and bits, and from both that it completes from every state. -/

namespace Sys2Proof.Machine

/-! ### What the instructions write -/

theorem exec_ldVxKk_eq (x : Reg) (kk : Byte) (s : State) :
    exec (.ldVxKk x kk) s = retire (s.setReg x kk) := rfl

theorem exec_addVxKk_eq (x : Reg) (kk : Byte) (s : State) :
    exec (.addVxKk x kk) s = retire (s.setReg x (s.reg x + kk)) := rfl

theorem exec_ldVxVy_eq (x y : Reg) (s : State) :
    exec (.ldVxVy x y) s = retire (s.setReg x (s.reg y)) := rfl

theorem exec_orVxVy_eq (x y : Reg) (s : State) :
    exec (.orVxVy x y) s = retire (s.setReg x (s.reg x ||| s.reg y)) := rfl

theorem exec_andVxVy_eq (x y : Reg) (s : State) :
    exec (.andVxVy x y) s = retire (s.setReg x (s.reg x &&& s.reg y)) := rfl

theorem exec_xorVxVy_eq (x y : Reg) (s : State) :
    exec (.xorVxVy x y) s = retire (s.setReg x (s.reg x ^^^ s.reg y)) := rfl

theorem exec_rndVxKk_eq (x : Reg) (kk : Byte) (s : State) :
    exec (.rndVxKk x kk) s = retire (s.setReg x (s.input.rnd &&& kk)) := rfl

theorem exec_addVxVy_eq (x y : Reg) (s : State) : exec (.addVxVy x y) s =
    retire (s.setResultAndFlag x (s.reg x + s.reg y) (carry (s.reg x) (s.reg y))) := rfl

theorem exec_subVxVy_eq (x y : Reg) (s : State) : exec (.subVxVy x y) s =
    retire (s.setResultAndFlag x (s.reg x - s.reg y) (notBorrow (s.reg x) (s.reg y))) := rfl

theorem exec_subnVxVy_eq (x y : Reg) (s : State) : exec (.subnVxVy x y) s =
    retire (s.setResultAndFlag x (s.reg y - s.reg x) (notBorrow (s.reg y) (s.reg x))) := rfl

section Completion

variable {i : Instr} {s : State} {x : Reg} {b : Byte} {f : Bool}

/-- An instruction that writes one register and retires (R90). -/
theorem completes_of_setReg (h : exec i s = retire (s.setReg x b)) :
    ∃ t, Completes i s t ∧ t.reg x = b ∧ t.pc = s.pc + 2 ∧
      OnlyChanges (fun p => p = .reg x ∨ p = .pc) s t :=
  ⟨_, ⟨h, rfl⟩, (State.reg_setReg s x x b).trans (if_pos rfl), rfl, frame_setReg s x b _ _⟩

/-- An instruction that writes a result, then the flag, and retires: with `x = 15` the flag is what
stays (R90, D15). -/
theorem completes_of_setResultAndFlag (h : exec i s = retire (s.setResultAndFlag x b f)) :
    ∃ t, Completes i s t ∧ (x ≠ 15 → t.reg x = b) ∧ t.reg 15 = flagByte f ∧ t.pc = s.pc + 2 ∧
      OnlyChanges (fun p => p = .reg x ∨ p = .reg 15 ∨ p = .pc) s t := by
  refine ⟨_, ⟨h, rfl⟩, fun hx => ?_, ?_, rfl, frame_setResultAndFlag s x b f _ _⟩
  · exact (State.reg_setResultAndFlag s x x b f).trans ((if_neg hx).trans (if_pos rfl))
  · exact (State.reg_setResultAndFlag s x 15 b f).trans (if_pos rfl)

end Completion

/-! ### Results and flags -/

theorem flagByte_decide (P : Prop) [Decidable P] :
    flagByte (decide P) = if P then 1 else 0 :=
  if_congr decide_eq_true_iff rfl rfl

theorem flagByte_toNat (f : Bool) : (flagByte f).toNat = f.toNat := by
  cases f <;> rfl

/-- The difference modulo 256: below zero, 256 is added (R103). -/
theorem byte_sub_toNat (a b : Byte) : (a - b).toNat =
    if b.toNat ≤ a.toNat then a.toNat - b.toNat else a.toNat + 256 - b.toNat := by
  split <;> bv_omega

theorem byte_shiftRight_one_toNat (a : Byte) : (a >>> 1).toNat = a.toNat / 2 := by
  rw [BitVec.toNat_ushiftRight, Nat.shiftRight_one]

theorem byte_shiftLeft_one_toNat (a : Byte) : (a <<< 1).toNat = 2 * a.toNat % 256 := by
  rw [BitVec.toNat_shiftLeft, Nat.shiftLeft_eq, pow_one, Nat.mul_comm]

/-- The bit that SHR shifts out is the remainder of the halving (R100). -/
theorem shiftedOutRight_toNat (a : Byte) : (shiftedOutRight a).toNat = a.toNat % 2 := by
  rw [shiftedOutRight, BitVec.getLsbD, Nat.toNat_testBit, pow_zero, Nat.div_one]

/-- The bit that SHL shifts out is bit 7, the top one of a byte (R101). -/
theorem shiftedOutLeft_toNat (a : Byte) : (shiftedOutLeft a).toNat = a.toNat / 128 := by
  have htop : a.toNat / 128 < 2 := by omega
  rw [shiftedOutLeft, BitVec.getLsbD, Nat.toNat_testBit]
  exact Nat.mod_eq_of_lt htop

/-! ### Instructions that write no flag -/

/-- The word 6xkk, written out, is the encoding of LD Vx,kk. -/
theorem encode_ldVxKk (x : Reg) (kk : Byte) :
    encode (.ldVxKk x kk) = 0x6#4 ++ (BitVec.ofNat 4 x.val ++ kk) :=
  congrArg (fun r : BitVec 4 => 0x6#4 ++ (r ++ kk))
    (BitVec.eq_of_toNat_eq (Nat.mod_eq_of_lt x.isLt).symm)

/-- Settles O27: 6xkk is the encoded word, and the byte is all that is written. -/
theorem loadByteWritesTheByte : Obligations.LoadByteWritesTheByte := fun x kk s =>
  ⟨encode_ldVxKk x kk ▸ decodeWord_encode _, completes_of_setReg (exec_ldVxKk_eq x kk s)⟩

/-- Settles O28: the 8-bit sum is the sum modulo 256. -/
theorem addByteWrapsWithoutAFlag : Obligations.AddByteWrapsWithoutAFlag := by
  intro x kk s
  obtain ⟨t, ht, hx, hpc, hframe⟩ := completes_of_setReg (exec_addVxKk_eq x kk s)
  exact ⟨t, ht, hx ▸ BitVec.toNat_add _ _, hpc, hframe⟩

/-- An instruction that writes one register with a byte given bit by bit. -/
theorem completes_of_setReg_bits {i : Instr} {s : State} {x : Reg} {b : Byte} {bit : Nat → Bool}
    (h : exec i s = retire (s.setReg x b)) (hbit : ∀ k, b.getLsbD k = bit k) :
    ∃ t, Completes i s t ∧ t.pc = s.pc + 2 ∧ (∀ k, (t.reg x).getLsbD k = bit k) ∧
      OnlyChanges (fun p => p = .reg x ∨ p = .pc) s t := by
  obtain ⟨t, ht, rfl, hpc, hframe⟩ := completes_of_setReg h
  exact ⟨t, ht, hpc, hbit, hframe⟩

/-- Settles O29: the word operations act on each bit; the operands are read before the write, so `x = y`
needs no case of its own. -/
theorem moveAndLogicWorkBitByBit : Obligations.MoveAndLogicWorkBitByBit := fun x y s =>
  ⟨completes_of_setReg (exec_ldVxVy_eq x y s),
    completes_of_setReg_bits (exec_orVxVy_eq x y s) fun _ => BitVec.getLsbD_or,
    completes_of_setReg_bits (exec_andVxVy_eq x y s) fun _ => BitVec.getLsbD_and,
    completes_of_setReg_bits (exec_xorVxVy_eq x y s) fun _ => BitVec.getLsbD_xor⟩

/-- Settles O33: the random byte is an operand like any other. -/
theorem randomIsMaskedByTheByte : Obligations.RandomIsMaskedByTheByte := by
  intro x kk s
  obtain ⟨t, ht, hpc, hbits, hframe⟩ :=
    completes_of_setReg_bits (exec_rndVxKk_eq x kk s) fun _ => BitVec.getLsbD_and
  exact ⟨t, ht, hbits, hpc, hframe⟩

/-! ### Instructions that write VF -/

/-- Settles O30: the result is the 8-bit sum, the flag the comparison of the sum on naturals. -/
theorem addRegistersGivesSumAndCarry : Obligations.AddRegistersGivesSumAndCarry := by
  intro x y s
  obtain ⟨t, ht, hx, hf, hpc, hframe⟩ := completes_of_setResultAndFlag (exec_addVxVy_eq x y s)
  exact ⟨t, ht, fun hne => hx hne ▸ BitVec.toNat_add _ _, hf.trans (flagByte_decide _), hpc, hframe⟩

/-- An instruction that subtracts `b` from `a` (R98, R99): the difference and the NOT-borrow. -/
theorem completes_of_difference {i : Instr} {s : State} {x : Reg} {a b : Byte}
    (h : exec i s = retire (s.setResultAndFlag x (a - b) (notBorrow a b))) :
    ∃ t, Completes i s t ∧
      (x ≠ 15 → (t.reg x).toNat =
        if b.toNat ≤ a.toNat then a.toNat - b.toNat else a.toNat + 256 - b.toNat) ∧
      t.reg 15 = (if b.toNat ≤ a.toNat then 1 else 0) ∧ t.pc = s.pc + 2 ∧
      OnlyChanges (fun p => p = .reg x ∨ p = .reg 15 ∨ p = .pc) s t := by
  obtain ⟨t, ht, hx, hf, hpc, hframe⟩ := completes_of_setResultAndFlag h
  exact ⟨t, ht, fun hne => hx hne ▸ byte_sub_toNat a b, hf.trans (flagByte_decide _), hpc, hframe⟩

/-- Settles O31: SUB and SUBN are one difference with the operands exchanged. -/
theorem subtractionsGiveDifferenceAndNotBorrow :
    Obligations.SubtractionsGiveDifferenceAndNotBorrow := fun x y s =>
  ⟨completes_of_difference (exec_subVxVy_eq x y s),
    completes_of_difference (exec_subnVxVy_eq x y s)⟩

/-- Settles O32: halving and doubling as naturals, and the bit shifted out as quotient or remainder. -/
theorem shiftsGiveResultAndShiftedOutBit : Obligations.ShiftsGiveResultAndShiftedOutBit := by
  refine fun x y s => ⟨?shr, ?shl⟩
  case shr =>
    obtain ⟨t, ht, hx, hf, hpc, hframe⟩ := completes_of_setResultAndFlag (exec_shrVx_eq x y s)
    refine ⟨t, ht, fun hne => hx hne ▸ byte_shiftRight_one_toNat _, ?_, hpc, hframe⟩
    rw [hf, flagByte_toNat, shiftedOutRight_toNat]
  case shl =>
    obtain ⟨t, ht, hx, hf, hpc, hframe⟩ := completes_of_setResultAndFlag (exec_shlVx_eq x y s)
    refine ⟨t, ht, fun hne => hx hne ▸ byte_shiftLeft_one_toNat _, ?_, hpc, hframe⟩
    rw [hf, flagByte_toNat, shiftedOutLeft_toNat]

end Sys2Proof.Machine
end

section
/-! Index register and memory (43_index_memory.md R105 to R111): what the writers of `I`, the stores and the
block load do where they complete, and where the memory instructions raise. -/

namespace Sys2Proof.Machine

/-! ### The writers of `I` -/

theorem exec_ldIAddr_eq (nnn : Addr12) (s : State) :
    exec (.ldIAddr nnn) s = retire (s.setIndex (zext16 nnn)) := rfl

theorem exec_addIVx_eq (x : Reg) (s : State) :
    exec (.addIVx x) s = retire (s.setIndex (s.i + (s.reg x).setWidth 16)) := rfl

theorem exec_ldFVx_eq (x : Reg) (s : State) :
    exec (.ldFVx x) s = retire (s.setIndex (glyphAddress (lowNibble (s.reg x)))) := rfl

/-- An instruction that writes `I` and retires: `I` gets the address modulo 4096 (R12). -/
theorem completes_of_setIndex {i : Instr} {s : State} {a : Word} {n : Nat}
    (h : exec i s = retire (s.setIndex a)) (hn : a.toNat % 4096 = n) :
    ∃ t, Completes i s t ∧ t.i.toNat = n ∧ t.pc = s.pc + 2 ∧
      OnlyChanges (fun p => p = .index ∨ p = .pc) s t :=
  ⟨_, ⟨h, rfl⟩, (setIndex_toNat s a).trans hn, rfl, frame_setIndex s a _ _⟩

theorem zext16_toNat_mod (nnn : Addr12) : (zext16 nnn).toNat % 4096 = nnn.toNat := by
  rw [zext16_toNat]
  exact Nat.mod_eq_of_lt nnn.isLt

/-- The 16-bit sum that ADD I makes keeps the 12 bits of the sum on naturals: 4096 divides the modulus at
which it wraps (R106). -/
theorem add_byte_toNat_mod (a : Word) (b : Byte) :
    (a + b.setWidth 16).toNat % 4096 = (a.toNat + b.toNat) % 4096 := by
  rw [BitVec.toNat_add, BitVec.toNat_setWidth]
  omega

/-- The last glyph, at 0x09B, is far below 4096: the glyph address is not masked (R107). -/
theorem glyphAddress_lowNibble_toNat_mod (b : Byte) :
    (glyphAddress (lowNibble b)).toNat % 4096 = 0x050 + 5 * (b.toNat % 16) := by
  rw [glyphAddress, BitVec.toNat_ofNat, lowNibble_val, fontBase]
  omega

/-- Settles O35: each writes an address whose 12 significant bits are the number stated. -/
theorem indexWritersSetTheIndex : Obligations.IndexWritersSetTheIndex := fun nnn x s =>
  ⟨completes_of_setIndex (exec_ldIAddr_eq nnn s) (zext16_toNat_mod nnn),
    completes_of_setIndex (exec_addIVx_eq x s) (add_byte_toNat_mod _ _),
    completes_of_setIndex (exec_ldFVx_eq x s) (glyphAddress_lowNibble_toNat_mod _)⟩

/-! ### Stores -/

/-- An instruction that stores `bs` from `I` on and retires: byte `I + k` is `bs[k]`, no other byte
changes (R37, R111). -/
theorem completes_of_store {i : Instr} {s : State} {bs : List Byte} (hwf : s.mem.wf = true)
    (hfit : s.base + bs.length ≤ 4096)
    (h : exec i s = .next { s with
      mem := s.mem.writeAll s.base bs, pc := s.pc + 2, report := .step .ok }) :
    ∃ t, Completes i s t ∧ (∀ k < bs.length, t.readByte (s.base + k) = some (bs.getD k 0)) ∧
      t.pc = s.pc + 2 ∧
      OnlyChanges (fun p => p = .pc ∨ ∃ k < bs.length, p = .cell (s.base + k)) s t := by
  refine ⟨_, ⟨h, rfl⟩, fun k hk => ?_, rfl, frame_store hwf s.base bs hfit _ _⟩
  have hin : s.base ≤ s.base + k ∧ s.base + k < s.base + bs.length := by omega
  have hread := State.readByte_storeBytes hwf (State.storeBytes_eq_some.mpr ⟨.inr hfit, rfl⟩)
    (s.base + k)
  rw [if_pos hin, Nat.add_sub_cancel_left] at hread
  exact hread

/-- The digits are computed on bytes as on naturals (R108). -/
theorem bcdDigits_eq (b : Byte) : bcdDigits b =
    [BitVec.ofNat 8 (b.toNat / 100), BitVec.ofNat 8 (b.toNat / 10 % 10),
      BitVec.ofNat 8 (b.toNat % 10)] := by
  rw [bcdDigits, BitVec.umod_def, BitVec.umod_def, BitVec.toNat_udiv, BitVec.udiv_def]
  rfl

/-- Settles O36: the three bytes stored are the digits; above 4093 the last of them has no address. -/
theorem bcdStoresHundredsTensOnes : Obligations.BcdStoresHundredsTensOnes := by
  refine fun x s hwf => ⟨fun hle => ?_,
    fun hgt => (exec_ldBVx_eq x s).trans (if_neg (Nat.not_le.mpr hgt))⟩
  have hfit : s.base + (bcdDigits (s.reg x)).length ≤ 4096 := by
    rw [bcdDigits_length, State.base]
    omega
  obtain ⟨t, ht, hbytes, hpc, hframe⟩ :=
    completes_of_store hwf hfit ((exec_ldBVx_eq x s).trans (if_pos hle))
  rw [bcdDigits_length, bcdDigits_eq] at hbytes
  exact ⟨t, ht, hbytes 0 (by decide), hbytes 1 (by decide), hbytes 2 (by decide), hpc, hframe⟩

/-- Settles O37: the bytes stored are `V[0]` to `V[x]`; beyond 4095 the last of them has no address. -/
theorem blockStoreCopiesRegistersToMemory : Obligations.BlockStoreCopiesRegistersToMemory := by
  refine fun x s hwf => ⟨fun hle => ?_,
    fun hgt => (exec_ldMemVx_eq x s).trans (if_neg (Nat.not_le.mpr hgt))⟩
  have hlen := s.regsUpTo_length x
  have hfit : s.base + (s.regsUpTo x).length ≤ 4096 := by
    rw [hlen, State.base]
    omega
  obtain ⟨t, ht, hbytes, hpc, hframe⟩ :=
    completes_of_store hwf hfit ((exec_ldMemVx_eq x s).trans (if_pos hle))
  simp only [hlen, Nat.lt_succ_iff] at hbytes hframe
  refine ⟨t, ht, fun k hk => ?_, hpc, hframe⟩
  rw [hbytes k.val hk, State.regsUpTo_getD s x k.val hk, Fin.ofNat_val_eq_self]

/-! ### The block load -/

/-- Settles O38: register `k` gets the byte read at `I + k`; beyond 4095 the last byte has no address. -/
theorem blockLoadCopiesMemoryToRegisters : Obligations.BlockLoadCopiesMemoryToRegisters := by
  refine fun x s => ⟨fun hle => ?_,
    fun hgt => (exec_ldVxMem_eq x s).trans (if_neg (Nat.not_le.mpr hgt))⟩
  refine ⟨_, ⟨(exec_ldVxMem_eq x s).trans (if_pos hle), rfl⟩, fun k hk => ?_, rfl, ?_⟩
  · have hin : s.i.toNat + k.val ≤ 4095 := (Nat.add_le_add_left hk _).trans hle
    rw [State.readByte_eq, if_pos hin]
    exact congrArg some ((reg_ldVxMem x k s).trans (if_pos hk))
  · exact onlyChanges_display_regs s (fun _ _ _ => rfl)
      (fun y hy => (reg_ldVxMem x y s).trans (if_neg fun hyx => hy (.inr ⟨y, hyx, rfl⟩)))
      (.inl rfl) _ _

/-- Settles O39: the store leaves `I`, so the load reads the bytes that the store wrote; what becomes of the
register file in between changes neither. -/
theorem blockLoadUndoesBlockStore : Obligations.BlockLoadUndoesBlockStore := by
  intro x s v hwf hle
  obtain ⟨t, hstore, hbytes, -, hframe⟩ := (blockStoreCopiesRegistersToMemory x s hwf).1 hle
  have hti : t.i = s.i := hframe .index (by simp)
  obtain ⟨u, hload, hregs, -, hframe'⟩ :=
    (blockLoadCopiesMemoryToRegisters x { t with v := v }).1 (hti ▸ hle)
  have hui : u.i = t.i := hframe' .index (by simp)
  refine ⟨t, u, hstore, hload, fun k hk => ?restored, fun k hk => ?kept, hui.trans hti⟩
  case restored =>
    have hread : t.readByte (t.i.toNat + k.val) = some (s.reg k) := hti ▸ hbytes k hk
    exact Option.some_inj.mp ((hregs k hk).trans hread)
  case kept => exact hframe' (.reg k) (by simpa using hk)

end Sys2Proof.Machine
end

section
/-! The display (44_display.md R115 to R118): what CLS and DRW do to every pixel and to VF. -/

namespace Sys2Proof.Machine

/-! ### CLS -/

theorem exec_cls_eq (s : State) : exec .cls s =
    .next { s with fb := Vector.replicate 32 0, pc := s.pc + 2, report := .step .ok } := rfl

/-- Settles O42: every row becomes zero, and the frame leaves all but the pixels and `pc`. -/
theorem clearTurnsEveryPixelOff : Obligations.ClearTurnsEveryPixelOff := fun s =>
  ⟨_, ⟨exec_cls_eq s, rfl⟩, fun r c => by simp [State.pixel], rfl,
    onlyChanges_display_regs s (fun r c hp => absurd (.inr ⟨r, c, rfl⟩) hp) (fun _ _ => rfl)
      (.inl rfl) _ _⟩

/-! ### The canvas of one DRW -/

/-- A set bit of the byte lands on the column that its place, counted from the most significant bit, names
modulo 64 (R115). -/
theorem rowCovers_iff {c0 : Nat} {b : Byte} {c : Fin 64} :
    rowCovers c0 b c = true ↔
      ∃ k < 8, b.getLsbD (7 - k) = true ∧ c.val = (c0 + k) % 64 := by
  have hmem : ∀ k, k ∈ [0, 1, 2, 3, 4, 5, 6, 7] ↔ k < 8 := fun k => List.mem_range (n := 8)
  simp only [rowCovers, List.any_eq_true, lands, Bool.and_eq_true, decide_eq_true_eq, hmem,
    Fin.ext_iff, Fin.val_ofNat]

/-- The sprite as the statements say it is the sprite that the compositor's loops draw. -/
theorem spriteCovers_iff_covers {s : State} {x y : Reg} {n : Fin 16} {r : Fin 32} {c : Fin 64} :
    SpriteCovers s x y n r c ↔
      Covers ((s.reg x).toNat % 64) (bytesFrom s s.base n.val) ((s.reg y).toNat % 32) r c := by
  simp only [SpriteCovers, Covers, rowCovers_iff, bytesFrom_length]
  constructor
  · rintro ⟨j, k, hj, hk, hbit, hr, hc⟩
    exact ⟨j, hj, Fin.ext hr, k, hk, by simpa [bytesFrom, State.base] using hbit, hc⟩
  · rintro ⟨j, hj, hr, k, hk, hbit, hc⟩
    exact ⟨j, k, hj, hk, by simpa [bytesFrom, State.base] using hbit, congrArg Fin.val hr, hc⟩

/-- The display and the collision that `DRW Vx,Vy,n` executed in `s` ends with. -/
def State.drawn (s : State) (x y : Reg) (n : Fin 16) : Canvas :=
  drawRows ((s.reg x).toNat % 64) (bytesFrom s s.base n.val) ((s.reg y).toNat % 32) ⟨s.fb, false⟩

theorem exec_drwVxVyN_of_fits {x y : Reg} {n : Fin 16} {s : State}
    (hfit : n = 0 ∨ s.i.toNat + n.val - 1 ≤ 4095) : exec (.drwVxVyN x y n) s =
    .next { s with
      fb := (s.drawn x y n).fb, v := s.v.set 15 (flagByte (s.drawn x y n).collision),
      pc := s.pc + 2, report := .step .ok } :=
  (exec_drwVxVyN_eq x y n s).trans (if_pos hfit)

theorem bytesFrom_length_le_32 (s : State) (n : Fin 16) :
    (bytesFrom s s.base n.val).length ≤ 32 := by
  rw [bytesFrom_length]
  omega

theorem State.pixel_drawn (s : State) (x y : Reg) (n : Fin 16) (r : Fin 32) (c : Fin 64) :
    (s.drawn x y n).pixel r c = true ↔ ¬(s.pixel r c = true ↔ SpriteCovers s x y n r c) := by
  rw [spriteCovers_iff_covers]
  exact Canvas.pixel_drawRows _ _ _ _ (bytesFrom_length_le_32 s n) r c

theorem State.collision_drawn (s : State) (x y : Reg) (n : Fin 16) :
    (s.drawn x y n).collision = true ↔ ∃ r c, SpriteCovers s x y n r c ∧ s.pixel r c = true := by
  simp only [spriteCovers_iff_covers]
  exact (Canvas.collision_drawRows _ _ _ _ (bytesFrom_length_le_32 s n)).trans
    (or_iff_right Bool.false_ne_true)

/-- The collision in terms of the display before and after: some pixel went from 1 to 0 (R117). -/
theorem State.collision_drawn_iff_erases (s : State) (x y : Reg) (n : Fin 16) :
    (s.drawn x y n).collision = true ↔
      ∃ r c, s.pixel r c = true ∧ (s.drawn x y n).pixel r c = false := by
  rw [State.collision_drawn]
  refine exists_congr fun r => exists_congr fun c => and_comm.trans (and_congr_right fun hon => ?_)
  rw [← Bool.not_eq_true, State.pixel_drawn, not_not, iff_true_left hon]

/-! ### DRW -/

/-- Settles O43: the pixels are those of the canvas, and VF is its collision. -/
theorem drawXorsTheSpriteAndReportsCollision :
    Obligations.DrawXorsTheSpriteAndReportsCollision := by
  intro x y n s hfit
  refine ⟨_, ⟨exec_drwVxVyN_of_fits hfit, rfl⟩, s.pixel_drawn x y n, fun herase => ?hit,
    fun hkeep => ?miss, rfl, ?frame⟩
  case hit =>
    have hcol := (s.collision_drawn_iff_erases x y n).mpr herase
    exact (State.reg_setReg s 15 15 _).trans (congrArg flagByte hcol)
  case miss =>
    have hcol : (s.drawn x y n).collision = false := by
      rw [← Bool.not_eq_true, State.collision_drawn_iff_erases]
      rintro ⟨r, c, hon, hoff⟩
      exact Bool.false_ne_true (hoff.symm.trans (hkeep r c hon))
    exact (State.reg_setReg s 15 15 _).trans (congrArg flagByte hcol)
  case frame =>
    exact onlyChanges_display_regs s (fun r c hp => absurd (.inr (.inr ⟨r, c, rfl⟩)) hp)
      (fun z hz => (State.reg_setReg s 15 z _).trans (if_neg fun h => hz (.inl (h ▸ rfl))))
      (.inr (.inl rfl)) _ _

/-- Settles O44: the condition under which DRW completes fails, and what is left is the fault. -/
theorem drawPastMemoryFaults : Obligations.DrawPastMemoryFaults := fun x y n s hn hpast =>
  (exec_drwVxVyN_eq x y n s).trans (if_neg (not_or_intro hn (Nat.not_le.mpr hpast)))

/-! ### Draws one after another -/

/-- A sprite in memory covers the same pixels from any state with the same coordinates, the same `I` and the
same memory. -/
theorem spriteCovers_congr {s t : State} {x y : Reg} {n : Fin 16}
    (hfit : n = 0 ∨ s.i.toNat + n.val - 1 ≤ 4095) (hx : t.reg x = s.reg x) (hy : t.reg y = s.reg y)
    (hi : t.i = s.i) (hmem : ∀ a, t.readByte a = s.readByte a) (r : Fin 32) (c : Fin 64) :
    SpriteCovers t x y n r c ↔ SpriteCovers s x y n r c := by
  have hread : ∀ j < n.val, t.mem.read (s.i.toNat + j) = s.mem.read (s.i.toNat + j) := by
    intro j hj
    have hn : n = 0 ↔ n.val = 0 := Fin.ext_iff
    have hle : s.i.toNat + j ≤ 4095 := by omega
    simpa only [State.readByte_eq, if_pos hle, Option.some_inj] using hmem (s.i.toNat + j)
  rw [SpriteCovers, SpriteCovers, hx, hy, hi]
  exact exists_congr fun j => exists_congr fun k => and_congr_right fun hj => by rw [hread j hj]

/-- Settles O45: the first draw leaves the coordinates, `I` and memory, so the second flips the same pixels
back; on a clear display it erases the pixels that the first turned on. -/
theorem drawingTwiceRestoresTheDisplay : Obligations.DrawingTwiceRestoresTheDisplay := by
  intro x y n s hx hy hfit
  obtain ⟨t, ht, hpix, -, -, -, hframe⟩ := drawXorsTheSpriteAndReportsCollision x y n s hfit
  have hti : t.i = s.i := hframe .index (by simp)
  obtain ⟨u, hu, hpix', hhit, -⟩ := drawXorsTheSpriteAndReportsCollision x y n t (hti ▸ hfit)
  have hsame := spriteCovers_congr hfit (hframe (.reg x) (by simpa using hx))
    (hframe (.reg y) (by simpa using hy)) hti fun a => hframe (.cell a) (by simp)
  have hrestored : ∀ r c, u.pixel r c = s.pixel r c := by
    intro r c
    rw [Bool.eq_iff_iff, hpix', hpix, hsame]
    tauto
  refine ⟨t, u, ht, hu, hrestored, fun hclear ⟨r, c, hcov⟩ => hhit ⟨r, c, ?lit, ?erased⟩⟩
  case lit => simp [hpix, hclear, hcov]
  case erased => exact (hrestored r c).trans (hclear r c)

/-- Settles O46: CLS leaves `I`, so the draw completes, and no pixel is on for it to turn off. -/
theorem drawAfterClearNeverCollides : Obligations.DrawAfterClearNeverCollides := by
  intro x y n s hfit
  obtain ⟨t, ⟨hcls, -⟩, hclear, -, hframe⟩ := clearTurnsEveryPixelOff s
  have hti : t.i = s.i := hframe .index (by simp)
  obtain ⟨u, ⟨hdrw, -⟩, -, -, hmiss, -⟩ := drawXorsTheSpriteAndReportsCollision x y n t (hti ▸ hfit)
  exact ⟨t, u, hcls, hdrw, hmiss fun r c hon => absurd hon (by simp [hclear])⟩

end Sys2Proof.Machine
end

section
/-! Keys and timers (45_timers_keys.md R120 to R125): the key tests as conditional skips, the moves to and
from a timer, and the entry into the wait for a key. -/

namespace Sys2Proof.Machine

/-! ### The key tests -/

theorem exec_skpVx_eq (x : Reg) (s : State) :
    exec (.skpVx x) s = returnOk (s.skipIf (s.keyHeld (lowNibble (s.reg x)))) := rfl

theorem exec_sknpVx_eq (x : Reg) (s : State) :
    exec (.sknpVx x) s = returnOk (s.skipIf (!s.keyHeld (lowNibble (s.reg x)))) := rfl

/-- The key that a byte names is the bit of the held keys numbered by the byte modulo 16 (D17). -/
theorem State.keyHeld_lowNibble (s : State) (b : Byte) :
    s.keyHeld (lowNibble b) = s.input.keysHeld.getLsbD (b.toNat % 16) :=
  congrArg s.input.keysHeld.getLsbD (lowNibble_val b)

/-- Settles O26: SKP skips on the bit of the named key, SKNP on its negation. -/
theorem keySkipsTestTheHeldKey : Obligations.KeySkipsTestTheHeldKey := by
  intro x s
  have hheld := Bool.eq_iff_iff.mp (s.keyHeld_lowNibble (s.reg x))
  exact ⟨completes_of_skipIf (exec_skpVx_eq x s) hheld,
    completes_of_skipIf_not (exec_sknpVx_eq x s) (Bool.not_iff_not.trans (not_congr hheld))⟩

/-! ### The timer moves -/

theorem exec_ldVxDt_eq (x : Reg) (s : State) :
    exec (.ldVxDt x) s = retire (s.setReg x s.dt) := rfl

theorem exec_ldDtVx_eq (x : Reg) (s : State) : exec (.ldDtVx x) s =
    .next { s with dt := s.reg x, pc := s.pc + 2, report := .step .ok } := rfl

theorem exec_ldStVx_eq (x : Reg) (s : State) : exec (.ldStVx x) s =
    .next { s with st := s.reg x, pc := s.pc + 2, report := .step .ok } := rfl

/-- Settles O47: the move from DT is a register write like any other, and each move to a timer leaves the
other timer. -/
theorem timerMovesCopyTheByte : Obligations.TimerMovesCopyTheByte := by
  refine fun x s => ⟨completes_of_setReg (exec_ldVxDt_eq x s), ?toDt, ?toSt⟩
  case toDt =>
    exact ⟨_, ⟨exec_ldDtVx_eq x s, rfl⟩, rfl, rfl,
      onlyChanges_timers s (fun hp => absurd (.inl rfl) hp) (fun _ => rfl) (.inr rfl) _ _⟩
  case toSt =>
    exact ⟨_, ⟨exec_ldStVx_eq x s, rfl⟩, rfl, rfl,
      onlyChanges_timers s (fun _ => rfl) (fun hp => absurd (.inl rfl) hp) (.inr rfl) _ _⟩

/-! ### The wait for a key -/

theorem exec_ldVxK_eq (x : Reg) (s : State) : exec (.ldVxK x) s =
    .next { s with mode := .awaitingKey x, report := .step .ok } := rfl

/-- Settles O48: beside the report, only the mode is written, and no input is read. -/
theorem waitKeyOnlyEntersTheWait : Obligations.WaitKeyOnlyEntersTheWait := fun x s =>
  ⟨_, ⟨exec_ldVxK_eq x s, rfl⟩, rfl, onlyChanges_mode (P := (· = .mode)) s rfl _ _⟩

end Sys2Proof.Machine
end

section
/-! The causes of the two faults (60_exceptions.md R131, R132): an instruction that goes on reports Ok, so
the fault it takes is the one it raises, and it raises it exactly where its condition fails. -/

namespace Sys2Proof.Machine

/-- The instructions and states that R131 (StackFault) and R132 (MemoryFault, without the fetch) list. A DRW
of no rows reads no byte (D25). -/
def FaultCause (i : Instr) (s : State) : FaultKind → Prop
  | .stackFault => (i = .ret ∧ s.sp = 0) ∨ ∃ nnn, i = .callAddr nnn ∧ s.sp = 15
  | .memoryFault =>
    (∃ x y n, i = .drwVxVyN x y n ∧ n ≠ 0 ∧ s.i.toNat + n.val - 1 > 4095) ∨
    (∃ x, i = .ldBVx x ∧ s.i.toNat + 2 > 4095) ∨
    (∃ x, (i = .ldMemVx x ∨ i = .ldVxMem x) ∧ s.i.toNat + x.val > 4095)

section TakesFault

variable {i : Instr} {s : State} {kind : FaultKind}

/-- An instruction that takes a fault does not complete: the outcome is not Ok (R77). -/
theorem TakesFault.not_completes (h : TakesFault i kind s) {t : State} : ¬Completes i s t := by
  rintro ⟨hx, hok⟩
  cases h.symm.trans hx
  cases hok

/-- An instruction that goes to `u`, reporting Ok, or raises takes a fault only where its condition fails,
and then the one it raises. -/
theorem TakesFault.of_ite_raise (h : TakesFault i kind s) {kind' : FaultKind} {u : State} {c : Prop}
    [Decidable c] (he : exec i s = if c then .next u else raise kind' s)
    (hu : u.report = .step .ok) : ¬c ∧ kind = kind' := by
  by_cases hc : c
  · exact absurd ⟨he.trans (if_pos hc), hu⟩ h.not_completes
  · refine ⟨hc, ?_⟩
    have hraise : raise kind' s = raise kind s := (he.trans (if_neg hc)).symm.trans h
    cases hraise
    rfl

/-- No instruction takes a fault but for a listed cause. -/
theorem TakesFault.cause (h : TakesFault i kind s) : FaultCause i s kind := by
  cases i with
  | ret =>
    obtain ⟨hsp, rfl⟩ := h.of_ite_raise ((exec_ret_eq s).trans (ite_not _ _ _).symm) rfl
    exact .inl ⟨rfl, not_not.mp hsp⟩
  | callAddr nnn =>
    obtain ⟨hsp, rfl⟩ := h.of_ite_raise ((exec_callAddr_eq nnn s).trans (ite_not _ _ _).symm) rfl
    exact .inr ⟨nnn, rfl, not_not.mp hsp⟩
  | drwVxVyN x y n =>
    obtain ⟨hfit, rfl⟩ := h.of_ite_raise (exec_drwVxVyN_eq x y n s) rfl
    obtain ⟨hn, hpast⟩ := not_or.mp hfit
    exact .inl ⟨x, y, n, rfl, hn, Nat.not_le.mp hpast⟩
  | ldBVx x =>
    obtain ⟨hfit, rfl⟩ := h.of_ite_raise (exec_ldBVx_eq x s) rfl
    exact .inr (.inl ⟨x, rfl, by omega⟩)
  | ldMemVx x =>
    obtain ⟨hfit, rfl⟩ := h.of_ite_raise (exec_ldMemVx_eq x s) rfl
    exact .inr (.inr ⟨x, .inl rfl, Nat.not_le.mp hfit⟩)
  | ldVxMem x =>
    obtain ⟨hfit, rfl⟩ := h.of_ite_raise (exec_ldVxMem_eq x s) rfl
    exact .inr (.inr ⟨x, .inr rfl, Nat.not_le.mp hfit⟩)
  | _ => exact absurd ⟨rfl, rfl⟩ h.not_completes

/-- Each listed cause is one: the instruction's condition fails there, and it raises. -/
theorem FaultCause.takesFault (h : FaultCause i s kind) : TakesFault i kind s := by
  cases kind with
  | stackFault =>
    obtain ⟨rfl, hempty⟩ | ⟨nnn, rfl, hfull⟩ := h
    · exact (returnPopsTheReturnAddress s).2 hempty
    · exact (callPushesTheReturnAddress nnn s).2 hfull
  | memoryFault =>
    obtain ⟨x, y, n, rfl, hn, hpast⟩ | ⟨x, rfl, hpast⟩ | ⟨x, rfl | rfl, hpast⟩ := h
    · exact drawPastMemoryFaults x y n s hn hpast
    · exact (exec_ldBVx_eq x s).trans (if_neg (by omega))
    · exact (exec_ldMemVx_eq x s).trans (if_neg (Nat.not_le.mpr hpast))
    · exact (blockLoadCopiesMemoryToRegisters x s).2 hpast

end TakesFault

/-- Settles O16: the list is that of the causes, in both directions for each kind. The mode plays no part. -/
theorem faultCausesAreExactlyTheListed : Obligations.FaultCausesAreExactlyTheListed :=
  fun _ _ _ => ⟨⟨TakesFault.cause, FaultCause.takesFault (kind := .stackFault)⟩,
    ⟨TakesFault.cause, FaultCause.takesFault (kind := .memoryFault)⟩⟩

end Sys2Proof.Machine
end

section
/-! The events that are no faults (60_exceptions.md R133 to R145): an unknown word, a Tick and its beep, a
LoadError, a read of the frame buffer. -/

namespace Sys2Proof.Machine

/-! ### The unknown word -/

/-- A Step of a running machine reports and skips two bytes that decode to no instruction. -/
theorem stepOp_of_decodeWord_none {s : State} {hi lo : Byte} (hrun : s.mode = .running)
    (hhi : s.readByte s.pc.toNat = some hi) (hlo : s.readByte (s.pc.toNat + 1) = some lo)
    (hd : decodeWord (wordOfBytes hi lo) = none) (input : StepInput) :
    stepOp exec input s = unknownStep (wordOfBytes hi lo) (s.present input) := by
  rw [stepOp_running hrun, runningStep, State.fetch_present, State.fetch_of_readByte hhi hlo,
    orRaise_some, hd]

/-- Settles O8: beside the inputs presented and the report, the no-op moves `pc` only. -/
theorem unknownOpcodeIsNotAFault : Obligations.UnknownOpcodeIsNotAFault := by
  intro s hi lo input rest hrun hhi hlo hd hscript
  refine ⟨_, (step_of_script hscript).trans
    (stepOp_of_decodeWord_none (s := { s with script := rest }) hrun hhi hlo hd input),
    rfl, rfl, hrun, ?_⟩
  exact ((onlyChanges_hostSide s rest input false s.report).mono fun _ => .inr).trans
    ((frame_pc _ _ _).mono fun _ => .inl)

/-! ### Tick -/

theorem tickOp_of_not_halted {s : State} (h : ∀ kind, s.mode ≠ .halted kind) :
    tickOp s = .next { s with
      dt := countDown s.dt, st := countDown s.st, report := .tick (s.st == 1),
      loadWindow := false } := by
  rcases tickOp_cases s with ⟨hhalt, -⟩ | ⟨-, ht⟩
  · cases hm : s.mode with
    | halted kind => exact absurd hm (h kind)
    | running | awaitingKey => rw [hm] at hhalt; cases hhalt
  · exact ht

/-- Writing the two timers changes no other part of the machine, `pc` included. -/
theorem frame_timers (s : State) (d e : Byte) : OnlyChanges (fun p => p = .dt ∨ p = .st) s
    { s with dt := d, st := e } := by
  intro p hp
  cases p with
  | dt => exact absurd (.inl rfl) hp
  | st => exact absurd (.inr rfl) hp
  | hostSide => exact ⟨rfl, rfl, rfl, rfl⟩
  | _ => rfl

/-- Settles O50: outside Halted a Tick counts both timers down, whichever the mode. -/
theorem tickCountsEachTimerDown : Obligations.TickCountsEachTimerDown := by
  intro s rest hscript hmode
  refine ⟨_, (step_of_script hscript).trans
    (tickOp_of_not_halted (s := { s with script := rest }) hmode),
    countDown_toNat s.dt, countDown_toNat s.st, ?_⟩
  exact ((frame_timers s _ _).mono fun _ hp => hp.imp_right .inl).trans
    ((onlyChanges_hostSide _ rest s.input false _).mono fun _ hp => .inr (.inr hp))

/-- A timer found at 1 is the one that counts down to 0 in this Tick. -/
theorem tickBeep_iff (b : Byte) : (b == 1) = true ↔ b = 1 ∧ countDown b = 0 := by
  rw [beq_iff_eq]
  exact ⟨fun h => ⟨h, h ▸ rfl⟩, And.left⟩

/-- Settles O51: a frozen Tick leaves ST, which is not 1 and 0 at once; the report of a Step is its
outcome. -/
theorem beepIsExactlyTheTickFromOneToZero : Obligations.BeepIsExactlyTheTickFromOneToZero := by
  refine fun s op rest hscript => ⟨?tick, ?step⟩
  case tick =>
    rintro rfl
    rw [step_of_script hscript]
    rcases tickOp_cases { s with script := rest } with ⟨-, ht⟩ | ⟨-, ht⟩
    · exact ⟨_, false, ht, rfl, nofun, fun ⟨hone, hzero⟩ => nomatch hone.symm.trans hzero⟩
    · exact ⟨_, _, ht, rfl, tickBeep_iff s.st⟩
  case step =>
    rintro input t beep rfl ht hbeep
    obtain ⟨t', outcome, ht', hreport, -⟩ := everyStepReturnsOneOutcome s input rest hscript
    cases ht'.symm.trans ht
    exact nomatch hreport.symm.trans hbeep

/-! ### Load and FbRead -/

/-- In its window, Load of too long an image only reports LoadError. -/
theorem loadOp_of_too_long {s : State} {image : List Byte} (hopen : s.loadWindow = true)
    (hlen : 3584 < image.length) :
    loadOp image s = .next { s with report := .load .loadError } := by
  have hfit : imageFits image = false := decide_eq_false (Nat.not_le.mpr hlen)
  rw [loadOp, if_neg (by simp [hopen]), if_pos hfit]

/-- Settles O53: the refused Load changes only the report. -/
theorem tooLongImageIsALoadError : Obligations.TooLongImageIsALoadError := by
  intro s image rest hscript hopen hlen
  exact ⟨_, (step_of_script hscript).trans
    (loadOp_of_too_long (s := { s with script := rest }) hopen hlen), rfl, hopen,
    onlyChanges_hostSide s rest s.input s.loadWindow _⟩

/-- Settles O56: FbRead has one case, which looks at no mode and writes only the report. -/
theorem frameBufferReadChangesNothing : Obligations.FrameBufferReadChangesNothing :=
  fun s r c rest hscript => ⟨{ s with script := rest, report := .pixel (s.pixel r c) },
    step_of_script hscript, rfl, rfl, onlyChanges_hostSide s rest s.input s.loadWindow _, rfl, rfl,
    rfl⟩

end Sys2Proof.Machine
end

section
/-! Load and its window, and the parked program (70_reset_and_hazards.md R151, R158). -/

namespace Sys2Proof.Machine

/-! ### Load -/

/-- Outside its window Load has no transition (log 4). -/
theorem loadOp_of_closed {s : State} (hclosed : s.loadWindow = false) (image : List Byte) :
    loadOp image s = .fault .loadOutsideWindow := by
  rw [loadOp, if_pos hclosed]

/-- In its window Load stores an image that fits. -/
theorem loadOp_of_fits {s : State} {image : List Byte} (hopen : s.loadWindow = true)
    (hlen : image.length ≤ 3584) : loadOp image s = .next { s with
      mem := s.mem.writeAll 0x200 image, report := .load .ok, loadWindow := false } := by
  have hfit : imageFits image = true := decide_eq_true hlen
  rw [loadOp, if_neg (by simp [hopen]), if_neg (by simp [hfit])]

/-- Storing bytes into memory, and nothing more, changes the bytes of the range only. -/
theorem frame_writeAll {s : State} (hs : s.mem.wf = true) (a : Nat) (bs : List Byte)
    (ha : a + bs.length ≤ 4096) : OnlyChanges (fun p => ∃ k < bs.length, p = .cell (a + k)) s
      { s with mem := s.mem.writeAll a bs } := by
  intro p hp
  by_cases hpc : p = .pc
  · subst hpc
    rfl
  · exact frame_store hs a bs ha s.pc s.report p fun h => h.elim hpc hp

/-- Settles O52: an image that fits ends within memory, so Load is a store of the whole of it at 0x200. -/
theorem loadCopiesTheImageVerbatim : Obligations.LoadCopiesTheImageVerbatim := by
  intro s image rest hscript hopen hwf hlen
  have hfit : 0x200 + image.length ≤ 4096 := by omega
  refine ⟨_, (step_of_script hscript).trans
    (loadOp_of_fits (s := { s with script := rest }) hopen hlen), rfl, rfl, fun k hk => ?byte, ?frame⟩
  case byte =>
    have hin : 0x200 ≤ 0x200 + k ∧ 0x200 + k < 0x200 + image.length := by omega
    rw [State.readByte_eq, if_pos (by omega), Memory.read_writeAll hwf hfit, if_pos hin,
      Nat.add_sub_cancel_left, List.getD_eq_getElem _ _ hk]
  case frame =>
    exact ((frame_writeAll hwf 0x200 image hfit).mono fun _ => .inr).trans
      ((onlyChanges_hostSide _ rest s.input false _).mono fun _ => .inl)

/-! ### The window -/

/-- A Step closes the window when its inputs are presented, and nothing it goes on to do opens it. -/
theorem stepOp_loadWindow {s t : State} {input : StepInput} (h : stepOp exec input s = .next t) :
    t.loadWindow = false := by
  cases stepOp_stepCase h with
  | executes w i _ hm hpc hf hd hx =>
    obtain ⟨-, -, -, hwindow⟩ := exec_onlyChanges hx .hostSide id
    exact hwindow
  | _ => rfl

/-- A Tick closes the window, frozen or not. -/
theorem tickOp_loadWindow {s t : State} (h : tickOp s = .next t) : t.loadWindow = false := by
  rcases tickOp_cases s with ⟨-, ht⟩ | ⟨-, ht⟩ <;> cases ht.symm.trans h <;> rfl

/-- A Load that answers Ok closes the window. -/
theorem loadOp_loadWindow {s t : State} {image : List Byte} (h : loadOp image s = .next t)
    (hok : t.report = .load .ok) : t.loadWindow = false := by
  rcases loadOp_cases h with rfl | ⟨-, rfl⟩
  · cases hok
  · rfl

/-- Settles O54: the stop of a late Load, and what each operation leaves in the window. -/
theorem loadIsLegalOnlyInItsWindow : Obligations.LoadIsLegalOnlyInItsWindow := by
  intro s op rest hscript
  rw [step_of_script hscript]
  refine ⟨?closed, fun t h => ⟨?reset, ?tick, ?step, ?load, ?fbRead⟩⟩
  case closed =>
    rintro image rfl hclosed
    exact loadOp_of_closed (s := { s with script := rest }) hclosed image
  case reset => rintro rfl; cases h; rfl
  case tick => rintro rfl; exact tickOp_loadWindow h
  case step => rintro input rfl; exact stepOp_loadWindow h
  case load => rintro image rfl hok; exact loadOp_loadWindow h hok
  case fbRead => rintro r c rfl; cases h; rfl

/-! ### The parked program -/

/-- A Step of a running machine executes what the fetched word decodes to. -/
theorem stepOp_of_fetch {s : State} {w : Word} {i : Instr} (hrun : s.mode = .running)
    (hf : s.fetch = some w) (hd : decodeWord w = some i) (input : StepInput) :
    stepOp exec input s = exec i (s.present input) := by
  rw [stepOp_running hrun, runningStep, State.fetch_present, hf, orRaise_some, hd]

/-- Settles O57: the jump writes into `pc` the address that stands there already. -/
theorem jumpToItselfIsAFixedPoint : Obligations.JumpToItselfIsAFixedPoint := by
  intro s nnn input rest hrun hself _ hf hscript
  have htarget : zext16 nnn = s.pc := BitVec.eq_of_toNat_eq ((zext16_toNat nnn).trans hself.symm)
  have hstep : step s = exec (.jpAddr nnn) (({ s with script := rest } : State).present input) :=
    (step_of_script hscript).trans
      (stepOp_of_fetch (s := { s with script := rest }) hrun hf (decodeWord_encode _) input)
  rw [exec_jpAddr_eq, htarget] at hstep
  exact ⟨_, hstep, rfl, onlyChanges_hostSide s rest input false _⟩

end Sys2Proof.Machine
end
